-- ==== Sys2Proof/Word.lean ====
section
/-! DEFINITION. The widths of the machine's words, and the type of register indexes. -/

namespace Sys2Proof

/-- A byte of memory, a general register or a timer (10_state.md R21, R27, R32, R33). -/
abbrev Byte := BitVec 8

/-- A 16-bit word: an instruction word, PC, I, a return address (10_state.md R23 to R25, 30_encoding.md R80). -/
abbrev Word := BitVec 16

/-- The 12-bit address operand nnn (30_encoding.md R81). -/
abbrev Addr := BitVec 12

/-- A 4-bit unit of the instruction word (00_scope.md R11). -/
abbrev Nibble := BitVec 4

/-- The index of a general register, always 0..15 (10_state.md R21, 30_encoding.md R84). -/
abbrev Reg := Fin 16

/-- VF, general register 15, which doubles as the flag register (10_state.md R22). -/
abbrev VF : Reg := 15

end Sys2Proof
end

