-- ==== Sys2Proof/Machine/Flags.lean ====
section
/-! DEFINITION. The values the instructions write to VF (10_state.md R22, 43_alu.md R140, 44_index_memory.md R161). -/

namespace Sys2Proof.Machine

/-- `bool ? 1 : 0` as a byte (00_scope.md R8). -/
def flag (p : Bool) : Byte := if p then 1 else 0

/-- The carry of a sum: sum > 255 (43_alu.md R147). -/
def carryOut (a b : Byte) : Byte := flag (decide (a.toNat + b.toNat > 255))

/-- "VF := a > b ? 1 : 0", strictly greater (43_alu.md R148, R150). -/
def greater (a b : Byte) : Byte := flag (decide (a.toNat > b.toNat))

/-- Bit 0, the bit a right shift moves out (43_alu.md R149). -/
def lowBit (a : Byte) : Byte := a &&& 1

/-- Bit 7, the bit a left shift moves out (43_alu.md R151). -/
def highBit (a : Byte) : Byte := (a >>> 7) &&& 1

/-- Whether I + Vx passes 0xFFF (44_index_memory.md R161). -/
def indexOverflows (sum : Nat) : Bool := decide (sum > 0xFFF)

end Sys2Proof.Machine
end

