-- ==== Sys2Proof/Syntax.lean ====
section
/-! DEFINITION. The instructions, one constructor per row of spec/opcode_table.json (30_encoding.md R86), and the assembler
lines of R91. The operand types are exact: a register index is 0..15, nn has 8 bits, nnn 12 and n 4 (R81, R84), so
every term of `Instr` is encodable. What can be ill formed is an assembler line (WellFormed.lean). -/

namespace Sys2Proof

/-- One constructor per row of the opcode map, in the table's order. -/
inductive Instr
  /-- 00E0 `CLS` (R174) -/
  | cls
  /-- 00EE `RET` (R120) -/
  | ret
  /-- 1nnn `JP nnn` (R121) -/
  | jp (nnn : Addr)
  /-- 2nnn `CALL nnn` (R122) -/
  | call (nnn : Addr)
  /-- 3xnn `SE Vx, nn` (R131) -/
  | seImm (x : Reg) (nn : Byte)
  /-- 4xnn `SNE Vx, nn` (R132) -/
  | sneImm (x : Reg) (nn : Byte)
  /-- 5xy0 `SE Vx, Vy` (R133) -/
  | seReg (x y : Reg)
  /-- 6xnn `LD Vx, nn` (R141) -/
  | ldImm (x : Reg) (nn : Byte)
  /-- 7xnn `ADD Vx, nn` (R142) -/
  | addImm (x : Reg) (nn : Byte)
  /-- 8xy0 `LD Vx, Vy` (R143) -/
  | ldReg (x y : Reg)
  /-- 8xy1 `OR Vx, Vy` (R144) -/
  | orReg (x y : Reg)
  /-- 8xy2 `AND Vx, Vy` (R145) -/
  | andReg (x y : Reg)
  /-- 8xy3 `XOR Vx, Vy` (R146) -/
  | xorReg (x y : Reg)
  /-- 8xy4 `ADD Vx, Vy` (R147) -/
  | addReg (x y : Reg)
  /-- 8xy5 `SUB Vx, Vy` (R148) -/
  | sub (x y : Reg)
  /-- 8xy6 `SHR Vx, Vy` (R149); y is encoded and not read (R93) -/
  | shr (x y : Reg)
  /-- 8xy7 `SUBN Vx, Vy` (R150) -/
  | subn (x y : Reg)
  /-- 8xyE `SHL Vx, Vy` (R151); y is encoded and not read (R93) -/
  | shl (x y : Reg)
  /-- 9xy0 `SNE Vx, Vy` (R134) -/
  | sneReg (x y : Reg)
  /-- Annn `LD I, nnn` (R160) -/
  | ldI (nnn : Addr)
  /-- Bnnn `JP V0, nnn` (R123) -/
  | jpV0 (nnn : Addr)
  /-- Cxnn `RND Vx, nn` (R152) -/
  | rnd (x : Reg) (nn : Byte)
  /-- Dxyn `DRW Vx, Vy, n` (R175) -/
  | drw (x y : Reg) (n : Nibble)
  /-- Ex9E `SKP Vx` (R135) -/
  | skp (x : Reg)
  /-- ExA1 `SKNP Vx` (R136) -/
  | sknp (x : Reg)
  /-- Fx07 `LD Vx, DT` (R180) -/
  | ldFromDt (x : Reg)
  /-- Fx0A `LD Vx, K` (R183) -/
  | ldKey (x : Reg)
  /-- Fx15 `LD DT, Vx` (R181) -/
  | ldToDt (x : Reg)
  /-- Fx18 `LD ST, Vx` (R182) -/
  | ldToSt (x : Reg)
  /-- Fx1E `ADD I, Vx` (R161) -/
  | addI (x : Reg)
  /-- Fx29 `LD F, Vx` (R162) -/
  | ldFont (x : Reg)
  /-- Fx33 `LD B, Vx` (R163) -/
  | ldBcd (x : Reg)
  /-- Fx55 `LD [I], Vx` (R164) -/
  | storeRegs (x : Reg)
  /-- Fx65 `LD Vx, [I]` (R165) -/
  | loadRegs (x : Reg)
  deriving DecidableEq, Repr

/-- The mnemonics of the assembler syntax (30_encoding.md R86, R91); several name more than one instruction. -/
inductive Mnemonic
  | CLS | RET | JP | CALL | SE | SNE | LD | ADD | OR | AND | XOR | SUB | SHR | SUBN | SHL | RND | DRW | SKP | SKNP
  deriving DecidableEq, Repr

/-- The operands of the assembler syntax (30_encoding.md R91): a register, a number, or a literal operand. -/
inductive Operand
  | reg (x : Reg)
  | num (k : Nat)
  | I | DT | ST | K | F | B | atI
  deriving DecidableEq, Repr

/-- One line of the assembler syntax, "the mnemonic, then operands separated by commas" (30_encoding.md R91), as parsed. -/
structure Line where
  mnemonic : Mnemonic
  operands : List Operand
  deriving DecidableEq, Repr

end Sys2Proof
end

