-- ==== Sys2Proof/WellFormed.lean ====
section
/-! DEFINITION. Well-formed assembler lines (30_encoding.md R91, R92): the operand kinds select the instruction, and "an immediate
must fit its field (nn 0..255, nnn 0..0xFFF, n 0..15), else the line is refused". -/

namespace Sys2Proof

/-- A number as the field nn. -/
def fitByte (k : Nat) : Option Byte := if k < 256 then some (BitVec.ofNat 8 k) else none

/-- A number as the field nnn. -/
def fitAddr (k : Nat) : Option Addr := if k < 0x1000 then some (BitVec.ofNat 12 k) else none

/-- A number as the field n. -/
def fitNibble (k : Nat) : Option Nibble := if k < 16 then some (BitVec.ofNat 4 k) else none

/-- The instruction a line stands for, or `none` where the line is refused (30_encoding.md R91). -/
def assemble (l : Line) : Option Instr :=
  match l.mnemonic, l.operands with
  | .CLS, [] => some .cls
  | .RET, [] => some .ret
  | .JP, [.num k] => (fitAddr k).map .jp
  | .JP, [.reg x, .num k] => if x = 0 then (fitAddr k).map .jpV0 else none
  | .CALL, [.num k] => (fitAddr k).map .call
  | .SE, [.reg x, .num k] => (fitByte k).map (.seImm x)
  | .SE, [.reg x, .reg y] => some (.seReg x y)
  | .SNE, [.reg x, .num k] => (fitByte k).map (.sneImm x)
  | .SNE, [.reg x, .reg y] => some (.sneReg x y)
  | .LD, [.reg x, .num k] => (fitByte k).map (.ldImm x)
  | .LD, [.reg x, .reg y] => some (.ldReg x y)
  | .LD, [.I, .num k] => (fitAddr k).map .ldI
  | .LD, [.reg x, .DT] => some (.ldFromDt x)
  | .LD, [.reg x, .K] => some (.ldKey x)
  | .LD, [.DT, .reg x] => some (.ldToDt x)
  | .LD, [.ST, .reg x] => some (.ldToSt x)
  | .LD, [.F, .reg x] => some (.ldFont x)
  | .LD, [.B, .reg x] => some (.ldBcd x)
  | .LD, [.atI, .reg x] => some (.storeRegs x)
  | .LD, [.reg x, .atI] => some (.loadRegs x)
  | .ADD, [.reg x, .num k] => (fitByte k).map (.addImm x)
  | .ADD, [.reg x, .reg y] => some (.addReg x y)
  | .ADD, [.I, .reg x] => some (.addI x)
  | .OR, [.reg x, .reg y] => some (.orReg x y)
  | .AND, [.reg x, .reg y] => some (.andReg x y)
  | .XOR, [.reg x, .reg y] => some (.xorReg x y)
  | .SUB, [.reg x, .reg y] => some (.sub x y)
  | .SHR, [.reg x, .reg y] => some (.shr x y)
  | .SUBN, [.reg x, .reg y] => some (.subn x y)
  | .SHL, [.reg x, .reg y] => some (.shl x y)
  | .RND, [.reg x, .num k] => (fitByte k).map (.rnd x)
  | .DRW, [.reg x, .reg y, .num k] => (fitNibble k).map (.drw x y)
  | .SKP, [.reg x] => some (.skp x)
  | .SKNP, [.reg x] => some (.sknp x)
  | _, _ => none

/-- The line the syntax column of 30_encoding.md R86 writes for an instruction. -/
def disassemble : Instr → Line
  | .cls => ⟨.CLS, []⟩
  | .ret => ⟨.RET, []⟩
  | .jp nnn => ⟨.JP, [.num nnn.toNat]⟩
  | .call nnn => ⟨.CALL, [.num nnn.toNat]⟩
  | .seImm x nn => ⟨.SE, [.reg x, .num nn.toNat]⟩
  | .sneImm x nn => ⟨.SNE, [.reg x, .num nn.toNat]⟩
  | .seReg x y => ⟨.SE, [.reg x, .reg y]⟩
  | .ldImm x nn => ⟨.LD, [.reg x, .num nn.toNat]⟩
  | .addImm x nn => ⟨.ADD, [.reg x, .num nn.toNat]⟩
  | .ldReg x y => ⟨.LD, [.reg x, .reg y]⟩
  | .orReg x y => ⟨.OR, [.reg x, .reg y]⟩
  | .andReg x y => ⟨.AND, [.reg x, .reg y]⟩
  | .xorReg x y => ⟨.XOR, [.reg x, .reg y]⟩
  | .addReg x y => ⟨.ADD, [.reg x, .reg y]⟩
  | .sub x y => ⟨.SUB, [.reg x, .reg y]⟩
  | .shr x y => ⟨.SHR, [.reg x, .reg y]⟩
  | .subn x y => ⟨.SUBN, [.reg x, .reg y]⟩
  | .shl x y => ⟨.SHL, [.reg x, .reg y]⟩
  | .sneReg x y => ⟨.SNE, [.reg x, .reg y]⟩
  | .ldI nnn => ⟨.LD, [.I, .num nnn.toNat]⟩
  | .jpV0 nnn => ⟨.JP, [.reg 0, .num nnn.toNat]⟩
  | .rnd x nn => ⟨.RND, [.reg x, .num nn.toNat]⟩
  | .drw x y n => ⟨.DRW, [.reg x, .reg y, .num n.toNat]⟩
  | .skp x => ⟨.SKP, [.reg x]⟩
  | .sknp x => ⟨.SKNP, [.reg x]⟩
  | .ldFromDt x => ⟨.LD, [.reg x, .DT]⟩
  | .ldKey x => ⟨.LD, [.reg x, .K]⟩
  | .ldToDt x => ⟨.LD, [.DT, .reg x]⟩
  | .ldToSt x => ⟨.LD, [.ST, .reg x]⟩
  | .addI x => ⟨.ADD, [.I, .reg x]⟩
  | .ldFont x => ⟨.LD, [.F, .reg x]⟩
  | .ldBcd x => ⟨.LD, [.B, .reg x]⟩
  | .storeRegs x => ⟨.LD, [.atI, .reg x]⟩
  | .loadRegs x => ⟨.LD, [.reg x, .atI]⟩

/-- A line is well formed when it stands for an instruction. -/
def Line.wellFormed (l : Line) : Bool := (assemble l).isSome

end Sys2Proof
end

