-- ==== Sys2Proof/Decode.lean ====
section
/-! DEFINITION. Decoding and encoding (30_encoding.md R80 to R90, R93).

A word is one of the three layouts of R81: op and nnn; op, x and nn; op, x, y and n. Decoding is total: a word that matches no
row is unrecognised (R88), which the machine runs as a logged no-op (40_cycle.md R107). -/

namespace Sys2Proof

/-! ### The three layouts of the instruction word -/

/-- `Onnn`. -/
def packNNN (op : Nibble) (nnn : Addr) : Word := op ++ nnn

/-- `Oxnn`. -/
def packXNN (op : Nibble) (x : Reg) (nn : Byte) : Word := op ++ BitVec.ofFin (w := 4) x ++ nn

/-- `Oxyn`. -/
def packXYN (op : Nibble) (x y : Reg) (n : Nibble) : Word :=
  op ++ BitVec.ofFin (w := 4) x ++ BitVec.ofFin (w := 4) y ++ n

/-! ### The fields of the instruction word (R81) -/

/-- op = w[15:12], as a number. -/
def fieldOp (w : Word) : Nat := (w.extractLsb' 12 4).toNat
/-- x = w[11:8]. -/
def fieldX (w : Word) : Reg := (w.extractLsb' 8 4).toFin
/-- y = w[7:4]. -/
def fieldY (w : Word) : Reg := (w.extractLsb' 4 4).toFin
/-- n = w[3:0]. -/
def fieldN (w : Word) : Nibble := w.extractLsb' 0 4
/-- nn = w[7:0]. -/
def fieldNN (w : Word) : Byte := w.extractLsb' 0 8
/-- nnn = w[11:0]. -/
def fieldNNN (w : Word) : Addr := w.extractLsb' 0 12

/-! ### Decoding -/

/-- Group 0x0: the whole word selects (R85, R87). -/
def decodeGroup0 (w : Word) : Option Instr :=
  if w = 0x00E0 then some .cls else if w = 0x00EE then some .ret else none

/-- Group 0x8: n selects (R85, R87). -/
def decodeGroup8 (x y : Reg) (n : Nat) : Option Instr :=
  match n with
  | 0x0 => some (.ldReg x y)
  | 0x1 => some (.orReg x y)
  | 0x2 => some (.andReg x y)
  | 0x3 => some (.xorReg x y)
  | 0x4 => some (.addReg x y)
  | 0x5 => some (.sub x y)
  | 0x6 => some (.shr x y)
  | 0x7 => some (.subn x y)
  | 0xE => some (.shl x y)
  | _ => none

/-- Group 0xE: nn selects (R85, R87). -/
def decodeGroupE (x : Reg) (nn : Nat) : Option Instr :=
  match nn with
  | 0x9E => some (.skp x)
  | 0xA1 => some (.sknp x)
  | _ => none

/-- Group 0xF: nn selects (R85, R87). -/
def decodeGroupF (x : Reg) (nn : Nat) : Option Instr :=
  match nn with
  | 0x07 => some (.ldFromDt x)
  | 0x0A => some (.ldKey x)
  | 0x15 => some (.ldToDt x)
  | 0x18 => some (.ldToSt x)
  | 0x1E => some (.addI x)
  | 0x29 => some (.ldFont x)
  | 0x33 => some (.ldBcd x)
  | 0x55 => some (.storeRegs x)
  | 0x65 => some (.loadRegs x)
  | _ => none

/-- The instruction of a word, or `none` where no row of 30_encoding.md R86 matches (R85 to R88). -/
def decodeWord (w : Word) : Option Instr :=
  match fieldOp w with
  | 0x0 => decodeGroup0 w
  | 0x1 => some (.jp (fieldNNN w))
  | 0x2 => some (.call (fieldNNN w))
  | 0x3 => some (.seImm (fieldX w) (fieldNN w))
  | 0x4 => some (.sneImm (fieldX w) (fieldNN w))
  | 0x5 => if fieldN w = 0 then some (.seReg (fieldX w) (fieldY w)) else none
  | 0x6 => some (.ldImm (fieldX w) (fieldNN w))
  | 0x7 => some (.addImm (fieldX w) (fieldNN w))
  | 0x8 => decodeGroup8 (fieldX w) (fieldY w) (fieldN w).toNat
  | 0x9 => if fieldN w = 0 then some (.sneReg (fieldX w) (fieldY w)) else none
  | 0xA => some (.ldI (fieldNNN w))
  | 0xB => some (.jpV0 (fieldNNN w))
  | 0xC => some (.rnd (fieldX w) (fieldNN w))
  | 0xD => some (.drw (fieldX w) (fieldY w) (fieldN w))
  | 0xE => decodeGroupE (fieldX w) (fieldNN w).toNat
  | 0xF => decodeGroupF (fieldX w) (fieldNN w).toNat
  | _ => none

/-- Why bytes do not give an instruction. -/
inductive DecodeReject
  /-- fewer than two bytes are left -/
  | tooShort
  /-- the word matches no row (R88) -/
  | unrecognised (w : Word)
  deriving DecidableEq, Repr

/-- Two bytes as a word, the first the high byte (20_memory.md R56). -/
def wordOfBytes (hi lo : Byte) : Word := hi ++ lo

/-- The bytes of a word as the hardware stores it, the high byte at the lower address (20_memory.md R56). -/
def bytesOfWord (w : Word) : List Byte := [w.extractLsb' 8 8, w.extractLsb' 0 8]

/-- The instruction at the front of some bytes, with the bytes after it. -/
def decode : List Byte → Except DecodeReject (Instr × List Byte)
  | hi :: lo :: rest =>
    match decodeWord (wordOfBytes hi lo) with
    | some i => .ok (i, rest)
    | none => .error (.unrecognised (wordOfBytes hi lo))
  | _ => .error .tooShort

/-! ### Encoding -/

/-- The word of an instruction (30_encoding.md R82, R86). -/
def encode : Instr → Word
  | .cls => 0x00E0
  | .ret => 0x00EE
  | .jp nnn => packNNN 0x1 nnn
  | .call nnn => packNNN 0x2 nnn
  | .seImm x nn => packXNN 0x3 x nn
  | .sneImm x nn => packXNN 0x4 x nn
  | .seReg x y => packXYN 0x5 x y 0x0
  | .ldImm x nn => packXNN 0x6 x nn
  | .addImm x nn => packXNN 0x7 x nn
  | .ldReg x y => packXYN 0x8 x y 0x0
  | .orReg x y => packXYN 0x8 x y 0x1
  | .andReg x y => packXYN 0x8 x y 0x2
  | .xorReg x y => packXYN 0x8 x y 0x3
  | .addReg x y => packXYN 0x8 x y 0x4
  | .sub x y => packXYN 0x8 x y 0x5
  | .shr x y => packXYN 0x8 x y 0x6
  | .subn x y => packXYN 0x8 x y 0x7
  | .shl x y => packXYN 0x8 x y 0xE
  | .sneReg x y => packXYN 0x9 x y 0x0
  | .ldI nnn => packNNN 0xA nnn
  | .jpV0 nnn => packNNN 0xB nnn
  | .rnd x nn => packXNN 0xC x nn
  | .drw x y n => packXYN 0xD x y n
  | .skp x => packXNN 0xE x 0x9E
  | .sknp x => packXNN 0xE x 0xA1
  | .ldFromDt x => packXNN 0xF x 0x07
  | .ldKey x => packXNN 0xF x 0x0A
  | .ldToDt x => packXNN 0xF x 0x15
  | .ldToSt x => packXNN 0xF x 0x18
  | .addI x => packXNN 0xF x 0x1E
  | .ldFont x => packXNN 0xF x 0x29
  | .ldBcd x => packXNN 0xF x 0x33
  | .storeRegs x => packXNN 0xF x 0x55
  | .loadRegs x => packXNN 0xF x 0x65

/-- An instruction as the bytes the hardware stores. -/
def encodeBytes (i : Instr) : List Byte := bytesOfWord (encode i)

/-! ### The host's view: words numbered as spec/opcode_table.json numbers them -/

/-- What the decoder reads from an instruction whose bits are `w`, laid out in memory order. Every row of the table has 16 bits,
so `nbits` selects nothing. -/
def decodeTableWord (_nbits w : Nat) : Option Instr :=
  match decode (bytesOfWord (BitVec.ofNat 16 w)) with
  | .ok (i, _) => some i
  | .error _ => none

end Sys2Proof
end

