-- ==== Sys2Proof/Config.lean ====
section
/-! DEFINITION. The parameters of the block (00_scope.md R5, R6) and the free values the spec leaves open.

The parameters R5 fixes are constants. FONT_BASE and FONT_DATA are not settled by the source (R6): they are the plain record
`Config`, which `Machine.State` carries and no step changes, so a statement about every state holds for every FONT_BASE
and FONT_DATA the spec allows. What the source leaves open per execution is an opaque constant with no body, applied to
the number of the draw. -/

namespace Sys2Proof

/-- MEM_SIZE: addresses 0..4095 (00_scope.md R5). -/
abbrev memSize : Nat := 4096

/-- PROGRAM_BASE: where a program begins, and PC after reset (00_scope.md R5). -/
abbrev programBase : Nat := 0x200

/-- MAX_ROM = 4096 - 512 (00_scope.md R5). -/
abbrev maxRom : Nat := 3584

/-- The parameters of 00_scope.md R6 that are fixed for one block. -/
structure Config where
  /-- FONT_BASE; the bound says FONT_BASE + 80 <= 0x200. -/
  fontBase : Fin 433
  /-- FONT_DATA, glyph g at offset 5g. -/
  fontData : Vector Byte 80
  deriving DecidableEq, Repr

/-- The default font of 70_reset_and_hazards.md R251, glyphs 0 to 7. -/
def fontLow : List Byte :=
  [0xF0, 0x90, 0x90, 0x90, 0xF0,  0x20, 0x60, 0x20, 0x20, 0x70,
   0xF0, 0x10, 0xF0, 0x80, 0xF0,  0xF0, 0x10, 0xF0, 0x10, 0xF0,
   0x90, 0x90, 0xF0, 0x10, 0x10,  0xF0, 0x80, 0xF0, 0x10, 0xF0,
   0xF0, 0x80, 0xF0, 0x90, 0xF0,  0xF0, 0x10, 0x20, 0x40, 0x40]

/-- The default font of 70_reset_and_hazards.md R251, glyphs 8 to F. -/
def fontHigh : List Byte :=
  [0xF0, 0x90, 0xF0, 0x90, 0xF0,  0xF0, 0x90, 0xF0, 0x10, 0xF0,
   0xF0, 0x90, 0xF0, 0x90, 0x90,  0xE0, 0x90, 0xE0, 0x90, 0xE0,
   0xF0, 0x80, 0x80, 0x80, 0xF0,  0xE0, 0x90, 0x90, 0x90, 0xE0,
   0xF0, 0x80, 0xF0, 0x80, 0xF0,  0xF0, 0x80, 0xF0, 0x80, 0x80]

/-- The spec's default parameters: FONT_BASE = 0x050 and the font of R251 (00_scope.md R6). PRESUMED (log 1): the spec itself
supplies both from general knowledge. -/
def Config.standard : Config where
  fontBase := 0x050
  fontData := ⟨(fontLow ++ fontHigh).toArray, by decide⟩

/-! ### Free values: no body, so nothing can be proved of the value drawn. The first argument numbers the draw. -/

/-- The byte random_byte() returns (43_alu.md R153; log 2). -/
opaque Config.randomByte : Nat → Byte

/-- KEY_OOB: the key state read for the byte v >= 16 (42_skip.md R137; log 3). -/
opaque Config.keyOutOfRange : Nat → Byte → Bool

/-- PC after a fault, unspecified within the bound of 10_state.md R41 (c) (60_exceptions.md R204; logs 4, 5). -/
opaque Config.freePc : Nat → Fin 0x10FF

/-- last_opcode after a fault (60_exceptions.md R204; log 4). -/
opaque Config.freeLastOpcode : Nat → Option Word

/-- SP after a stack fault, any of 0..16 (93_implementation_defined.md U3; log 6). -/
opaque Config.freeSp : Nat → Fin 17

/-- A stack slot after a stack overflow (93_implementation_defined.md U3; log 6). -/
opaque Config.freeSlot : Nat → Fin 16 → Word

/-- A memory byte that is a target of a faulting store (60_exceptions.md R204; log 7). -/
opaque Config.freeMemByte : Nat → Nat → Byte

/-- A general register that is a target of a faulting instruction (60_exceptions.md R204; log 7). -/
opaque Config.freeReg : Nat → Fin 16 → Byte

/-- The rows whose drawing stands for the cells a faulting DRW leaves, row k by its number (60_exceptions.md R204; log 7). -/
opaque Config.freeRow : Nat → Nat → Byte

/-- Whether a faulting DRW sets the dirty flag (60_exceptions.md R204; log 7). -/
opaque Config.freeDirty : Nat → Bool

end Sys2Proof
end

