-- ==== Sys2Proof/Machine/State.lean ====
section
/-! DEFINITION. The state of the block, field for field the record of 10_state.md R20, with three fields of the model's own:
the configuration, the number of free values drawn, and the host operations still to be applied. -/

namespace Sys2Proof.Machine

/-- Which access a MemOutOfBounds fault reports (60_exceptions.md R200). -/
inductive Access
  | read
  | write
  deriving DecidableEq, Repr

/-- The fault kinds of the block with their details (60_exceptions.md R200). They are what `State.halted` records. NO STEP ANSWERS
`Outcome.fault`: the spec gives a fault's entry and the state after it (R204, R205), so a faulting cycle answers a next
state, in Halted-on-error. That is safe: nothing the spec lets happen after a fault is lost. -/
inductive Fault
  /-- A byte access at an address >= 4096, by a fetch, Dxyn, Fx33, Fx55 or Fx65 (R201): recorded, never an outcome (safe). -/
  | memOutOfBounds (access : Access) (addr : Nat)
  /-- CALL with SP = 16 (R202): recorded, never an outcome (safe). -/
  | stackOverflow (sp : Nat)
  /-- RET with SP = 0 (R203): recorded, never an outcome (safe). -/
  | stackUnderflow (sp : Nat)
  deriving DecidableEq, Repr

/-- The numeric code of a fault kind (60_exceptions.md R200, the spec's decision D21). -/
def Fault.code : Fault → Nat
  | .memOutOfBounds _ _ => 1
  | .stackOverflow _ => 2
  | .stackUnderflow _ => 3

/-- Why a step is refused. -/
inductive Refusal
  /-- An instruction without a meaning: raised by `exec` alone, and by no arm of this model (safe). -/
  | notModelled (mnemonic : String)
  /-- set_key with a code outside 0..15, which the block does not accept and "a model refuses" (60_exceptions.md R215;
  log 11). Raised by `setKey`; safe. -/
  | keyCodeOutOfRange (code : Nat)
  deriving DecidableEq, Repr

/-- The record halted holds: {kind, detail, at} (10_state.md R36). -/
structure FaultRecord where
  /-- kind and detail -/
  fault : Fault
  /-- `at`, the address the faulting cycle fetched from -/
  fetchedAt : Word
  deriving DecidableEq, Repr

/-- The diagnostic events (10_state.md R38). -/
inductive Event
  /-- an unrecognised word and the address it was fetched from (40_cycle.md R107) -/
  | unknownOpcode (w : Word) (addr : Word)
  /-- a ROM of this length was truncated (70_reset_and_hazards.md R253) -/
  | romTruncated (length : Nat)
  deriving DecidableEq, Repr

/-- The host's operations that can change the state (60_exceptions.md R212). The readouts change nothing and are functions
(HostOps.lean). -/
inductive HostOp
  | reset
  | loadRom (bytes : List Byte)
  | cycle
  | tickTimers
  | setKey (code : Nat) (pressed : Bool)
  | markClean
  | setPaused (p : Bool)
  deriving DecidableEq, Repr

/-- Memory as the bytes that differ from what an unlisted address reads as, by rising address (20_memory.md R50; log 12). -/
abbrev Memory := List Host.Cell

structure State where
  /-- V[0..15] (R21) -/
  v : Vector Byte 16
  /-- I (R23) -/
  i : Word
  /-- PC (R24) -/
  pc : Word
  /-- stack[0..15] (R25) -/
  stack : Vector Word 16
  /-- SP, the number of return addresses on the stack, 0..16 (R26) -/
  sp : Fin 17
  /-- mem[0..4095] (R27) -/
  mem : Memory
  /-- disp, row py as 64 bits: cell (px, py), disp[py * 64 + px], is bit px of row py (R28; log 17) -/
  disp : Vector (BitVec 64) 32
  /-- dirty (R29) -/
  dirty : Bool
  /-- keys[0..15], true = pressed (R30) -/
  keys : Vector Bool 16
  /-- wait (R31) -/
  wait : Option Reg
  /-- DT (R32) -/
  dt : Byte
  /-- ST (R33) -/
  st : Byte
  /-- sound_active (R34) -/
  soundActive : Bool
  /-- paused (R35) -/
  paused : Bool
  /-- halted (R36) -/
  halted : Option FaultRecord
  /-- last_opcode (R38) -/
  lastOpcode : Option Word
  /-- diag_log, oldest first (R38) -/
  diagLog : List Event
  /-- the model's own: FONT_BASE and FONT_DATA (00_scope.md R6; log 1) -/
  cfg : Config
  /-- the model's own: how many free values have been drawn (logs 2, 3, 4, 10) -/
  draws : Nat
  /-- the model's own: the host operations still to be applied, oldest first (60_exceptions.md R212; log 9) -/
  schedule : List HostOp
  deriving DecidableEq, Repr

/-- The state at creation, which is the state after reset with paused = 0 and an empty diag_log (10_state.md R42,
70_reset_and_hazards.md R254). Memory lists nothing: every byte reads as its reset contents. -/
def State.reset : State where
  v := Vector.replicate 16 0
  i := 0
  pc := 0x200
  stack := Vector.replicate 16 0
  sp := 0
  mem := []
  disp := Vector.replicate 32 0
  dirty := true
  keys := Vector.replicate 16 false
  wait := none
  dt := 0
  st := 0
  soundActive := false
  paused := false
  halted := none
  lastOpcode := none
  diagLog := []
  cfg := Config.standard
  draws := 0
  schedule := []

/-- What a meaning and a step answer. -/
abbrev Result := Host.Outcome State Fault Refusal

end Sys2Proof.Machine
end

