-- ==== Sys2Proof/Machine/Ops.lean ====
section
/-! DEFINITION. The named operations over memory, registers, the call stack and the diagnostics, the entry into
Halted-on-error, and the fetch. -/

namespace Sys2Proof.Machine

/-! ### Memory (20_memory.md) -/

/-- What an address no entry lists reads as: the reset contents, zero but for FONT_DATA at FONT_BASE (20_memory.md R54,
70_reset_and_hazards.md R250, R251). -/
def Memory.unlisted (c : Config) (a : Nat) : Byte :=
  if c.fontBase.val ≤ a then c.fontData.toList.getD (a - c.fontBase.val) 0 else 0

/-- The listed byte of an address. -/
def Memory.find : Memory → Nat → Option Byte
  | [], _ => none
  | (k, b) :: m, a => if k = a then some b else Memory.find m a

/-- The byte at an address below 4096. -/
def Memory.get (c : Config) (m : Memory) (a : Nat) : Byte := (Memory.find m a).getD (Memory.unlisted c a)

/-- Memory without the entries of an address. -/
def Memory.drop (m : Memory) (a : Nat) : Memory := m.filter fun e => e.1 != a

/-- Memory with an entry put before the first entry of a higher address. -/
def Memory.put : Memory → Nat → Byte → Memory
  | [], a, b => [(a, b)]
  | e :: m, a, b => if a < e.1 then (a, b) :: e :: m else e :: Memory.put m a b

/-- Memory after a byte is written. A byte equal to the address's reset contents is not listed. -/
def Memory.set (c : Config) (m : Memory) (a : Nat) (b : Byte) : Memory :=
  if b = Memory.unlisted c a then Memory.drop m a else Memory.put (Memory.drop m a) a b

/-- The canonical form: addresses strictly rising and below 4096, no entry equal to what an unlisted address reads as (log 12). -/
def Memory.wf (c : Config) (m : Memory) : Bool :=
  decide (m.Pairwise fun p q => p.1 < q.1) && m.all fun e => decide (e.1 < memSize) && e.2 != Memory.unlisted c e.1

/-- The byte of the state's memory at an address, as the spec's mem[a]. -/
def byteAt (s : State) (a : Nat) : Byte := Memory.get s.cfg s.mem a

/-- `MemRead(a, 1)` (20_memory.md R51). -/
def memRead (a : Nat) (s : State) : Except Fault Byte :=
  if a < memSize then .ok (byteAt s a) else .error (.memOutOfBounds .read a)

/-- mem[a] <- b. -/
def setByte (a : Nat) (b : Byte) (s : State) : State := { s with mem := Memory.set s.cfg s.mem a b }

/-- `MemWrite(a, 1, b)` (20_memory.md R52). -/
def memWrite (a : Nat) (b : Byte) (s : State) : Except Fault State :=
  if a < memSize then .ok (setByte a b s) else .error (.memOutOfBounds .write a)

/-- mem[a] <- b where the address exists, and nothing otherwise. -/
def pokeByte (a : Nat) (b : Byte) (s : State) : State := if a < memSize then setByte a b s else s

/-- Reads of n bytes from `a` up, in increasing order (20_memory.md R59). -/
def readBlock : Nat → Nat → State → Except Fault (List Byte)
  | _, 0, _ => .ok []
  | a, n + 1, s =>
    match memRead a s with
    | .error f => .error f
    | .ok b =>
      match readBlock (a + 1) n s with
      | .error f => .error f
      | .ok bs => .ok (b :: bs)

/-- Writes of some bytes from `a` up, in increasing order (20_memory.md R59). -/
def writeBlock : Nat → List Byte → State → Except Fault State
  | _, [], s => .ok s
  | a, b :: bs, s =>
    match memWrite a b s with
    | .error f => .error f
    | .ok t => writeBlock (a + 1) bs t

/-! ### Registers (10_state.md R21 to R24) -/

/-- V[x]. -/
def readV (s : State) (x : Reg) : Byte := s.v[x.val]

/-- V[x] <- b. -/
def writeV (x : Reg) (b : Byte) (s : State) : State := { s with v := s.v.set x.val b }

/-- V[k], V[k+1], ... <- the given bytes. -/
def writeRegsFrom : Nat → List Byte → State → State
  | _, [], s => s
  | k, b :: bs, s => writeRegsFrom (k + 1) bs (if h : k < 16 then writeV ⟨k, h⟩ b s else s)

/-- I <- w. -/
def writeI (w : Word) (s : State) : State := { s with i := w }

/-- PC <- w. -/
def writePc (w : Word) (s : State) : State := { s with pc := w }

/-- DT <- b. -/
def writeDt (b : Byte) (s : State) : State := { s with dt := b }

/-- ST <- b. -/
def writeSt (b : Byte) (s : State) : State := { s with st := b }

/-- wait <- w. -/
def writeWait (w : Option Reg) (s : State) : State := { s with wait := w }

/-- disp <- d and dirty <- 1: every clear and every draw sets dirty (45_display.md R173). -/
def writeDisp (d : Vector (BitVec 64) 32) (s : State) : State := { s with disp := d, dirty := true }

/-- The cell (px, py) of a display, disp[py * 64 + px], for px < 64 and py < 32 (10_state.md R28). -/
def pixel (d : Vector (BitVec 64) 32) (px py : Nat) : Bool := (d.toList.getD py 0).getLsbD px

/-! ### Diagnostics and free values -/

/-- `log(event)` (00_scope.md R9, 10_state.md R38). -/
def logEvent (e : Event) (s : State) : State := { s with diagLog := s.diagLog ++ [e] }

/-- last_opcode <- w (40_cycle.md R106). -/
def recordOpcode (w : Word) (s : State) : State := { s with lastOpcode := some w }

/-- One more free value has been drawn. -/
def countDraw (s : State) : State := { s with draws := s.draws + 1 }

/-! ### Entering Halted-on-error (60_exceptions.md R204, 93_implementation_defined.md U3) -/

/-- `raise Fault(f)`: halted records the fault and the address fetched from; PC and last_opcode, which every cycle writes, are
free values (logs 4, 5). The instruction's own targets are freed by the operations below before this one. -/
def raise (f : Fault) (fetchedAt : Word) (s : State) : State :=
  { s with
    halted := some { fault := f, fetchedAt := fetchedAt }
    pc := BitVec.ofNat 16 (Config.freePc s.draws).val
    lastOpcode := Config.freeLastOpcode s.draws
    draws := s.draws + 1 }

/-- A fault of the execute phase, where PC holds the fetch address plus 2 (40_cycle.md R103; log 8). -/
def raiseExec (f : Fault) (s : State) : State := raise f (s.pc - 2) s

/-- The bytes at a, ..., a + n - 1 that exist are free values (log 7). -/
def freeBlock : Nat → Nat → State → State
  | _, 0, s => s
  | a, n + 1, s => freeBlock (a + 1) n (pokeByte a (Config.freeMemByte s.draws a) s)

/-- V[0], ..., V[n - 1] are free values (log 7). -/
def freeRegs (n : Nat) (s : State) : State :=
  { s with v := Vector.ofFn fun k => if k.val < n then Config.freeReg s.draws k else s.v[k.val] }

/-- SP is a free value (log 6). -/
def freeSp (s : State) : State := { s with sp := Config.freeSp s.draws }

/-- A free stack slot: any value at or above SP, and below SP one within the bound of 10_state.md R41 (e) (logs 5, 6). -/
def freeSlot (n : Nat) (sp : Fin 17) (k : Fin 16) : Word :=
  if k.val < sp.val then BitVec.ofNat 16 ((Config.freeSlot n k).toNat % 0x1001) else Config.freeSlot n k

/-- SP and the stack slots are free values (log 6). -/
def freeStack (s : State) : State :=
  { s with sp := Config.freeSp s.draws, stack := Vector.ofFn (freeSlot s.draws (Config.freeSp s.draws)) }

/-! ### The call stack (10_state.md R25, R26) -/

/-- stack[SP] <- PC; SP <- SP + 1, or StackOverflow when SP = 16 (41_flow.md R122). -/
def pushPc (s : State) : Except Fault State :=
  if h : s.sp.val < 16 then
    .ok { s with stack := s.stack.set s.sp.val s.pc, sp := ⟨s.sp.val + 1, by omega⟩ }
  else .error (.stackOverflow s.sp.val)

/-- SP <- SP - 1; PC <- stack[SP], or StackUnderflow when SP = 0 (41_flow.md R120). -/
def popPc (s : State) : Except Fault State :=
  if h : s.sp.val = 0 then .error (.stackUnderflow s.sp.val)
  else .ok { s with sp := ⟨s.sp.val - 1, by omega⟩, pc := s.stack[s.sp.val - 1]'(by omega) }

/-! ### The fetch (40_cycle.md R101, R102) -/

/-- The word at PC and PC + 1, the byte at PC read first. -/
def fetch (s : State) : Except Fault Word :=
  match memRead s.pc.toNat s with
  | .error f => .error f
  | .ok hi =>
    match memRead (s.pc.toNat + 1) s with
    | .error f => .error f
    | .ok lo => .ok (wordOfBytes hi lo)

end Sys2Proof.Machine
end

