-- ==== Sys2Proof/Machine/Operands.lean ====
section
/-! DEFINITION. How operands become values: immediates (30_encoding.md R83), the addresses I + k (44_index_memory.md), the register
block V0..Vx, decimal digits, font addresses and key states. -/

namespace Sys2Proof.Machine

/-- zext_16(nnn) (30_encoding.md R83). -/
def addrWord (nnn : Addr) : Word := nnn.setWidth 16

/-- I + k as a memory address, a natural number that never wraps (20_memory.md R50). -/
def indexAddr (s : State) (k : Nat) : Nat := s.i.toNat + k

/-- V0..Vx, x + 1 bytes (44_index_memory.md R164). -/
def regBlock (s : State) (x : Reg) : List Byte := s.v.toList.take (x.val + 1)

/-- The hundreds, tens and units digits of a byte (44_index_memory.md R163). -/
def digits (b : Byte) : List Byte :=
  [BitVec.ofNat 8 (b.toNat / 100), BitVec.ofNat 8 (b.toNat / 10 % 10), BitVec.ofNat 8 (b.toNat % 10)]

/-- FONT_BASE + 5 * b, the whole byte used (44_index_memory.md R162). -/
def fontAddr (c : Config) (b : Byte) : Word := BitVec.ofNat 16 (c.fontBase.val + b.toNat * 5)

/-- nnn + V0 as a 16-bit sum, not reduced to 12 bits (41_flow.md R123). -/
def offsetTarget (nnn : Addr) (v0 : Byte) : Word := BitVec.ofNat 16 (nnn.toNat + v0.toNat)

/-- key_state(b): keys[b] for b < 16, else the open parameter KEY_OOB, drawn afresh at each execution (42_skip.md R137; log 3). -/
def keyState (b : Byte) (s : State) : Bool × State :=
  if h : b.toNat < 16 then (s.keys[b.toNat], s) else (Config.keyOutOfRange s.draws b, countDraw s)

/-- random_byte(): one fresh value per execution (43_alu.md R153; log 2). -/
def randomByte (s : State) : Byte × State := (Config.randomByte s.draws, countDraw s)

end Sys2Proof.Machine
end

