-- ==== Sys2Proof/Machine/Alu.lean ====
section
/-! DEFINITION. Register loads, arithmetic and logic (43_alu.md). The statements of each rule run in the written order, each reading
the registers as the one before left them (00_scope.md R10). BitVec addition, subtraction and shifts are modulo 256 (R140). -/

namespace Sys2Proof.Machine

/-- R141 -/
def execLdImm (x : Reg) (nn : Byte) (s : State) : Result := .next (writeV x nn s)

/-- R142 -/
def execAddImm (x : Reg) (nn : Byte) (s : State) : Result := .next (writeV x (readV s x + nn) s)

/-- R143 -/
def execLdReg (x y : Reg) (s : State) : Result := .next (writeV x (readV s y) s)

/-- R144 -/
def execOr (x y : Reg) (s : State) : Result := .next (writeV x (readV s x ||| readV s y) s)

/-- R145 -/
def execAnd (x y : Reg) (s : State) : Result := .next (writeV x (readV s x &&& readV s y) s)

/-- R146 -/
def execXor (x y : Reg) (s : State) : Result := .next (writeV x (readV s x ^^^ readV s y) s)

/-- R147: the sum is bound before VF is written. -/
def execAddReg (x y : Reg) (s : State) : Result :=
  let sum := readV s x + readV s y
  let t := writeV VF (carryOut (readV s x) (readV s y)) s
  .next (writeV x sum t)

/-- R148: V[x] and V[y] are read again after VF is written. -/
def execSub (x y : Reg) (s : State) : Result :=
  let t := writeV VF (greater (readV s x) (readV s y)) s
  .next (writeV x (readV t x - readV t y) t)

/-- R149: y is not read (30_encoding.md R93); V[x] is read again after VF is written. -/
def execShr (x _y : Reg) (s : State) : Result :=
  let t := writeV VF (lowBit (readV s x)) s
  .next (writeV x (readV t x >>> 1) t)

/-- R150: V[x] and V[y] are read again after VF is written. -/
def execSubn (x y : Reg) (s : State) : Result :=
  let t := writeV VF (greater (readV s y) (readV s x)) s
  .next (writeV x (readV t y - readV t x) t)

/-- R151: y is not read (30_encoding.md R93); V[x] is read again after VF is written. -/
def execShl (x _y : Reg) (s : State) : Result :=
  let t := writeV VF (highBit (readV s x)) s
  .next (writeV x (readV t x <<< 1) t)

/-- R152 -/
def execRnd (x : Reg) (nn : Byte) (s : State) : Result :=
  let (r, t) := randomByte s
  .next (writeV x (r &&& nn) t)

end Sys2Proof.Machine
end

