-- ==== Sys2Proof/Machine/Display.lean ====
section
/-! DEFINITION. The display controller and its two instructions (45_display.md). -/

namespace Sys2Proof.Machine

/-- The columns of the set bits of a sprite byte, bit 7 the leftmost (R171). -/
def setColumns (row : Byte) : List Nat := [0, 1, 2, 3, 4, 5, 6, 7].filter fun c => row.getLsbD (7 - c)

/-- The cells (px, py) the set bits of a sprite land on, in drawing order, each wrapped on both axes (R170, R171). -/
def spriteCells (vx : Nat) : Nat → List Byte → List (Nat × Nat)
  | _, [] => []
  | y, row :: rows =>
    (setColumns row).map (fun c => ((vx + c) % 64, y % 32)) ++ spriteCells vx (y + 1) rows

/-- disp[p] <- disp[p] ^ 1. -/
def flipPixel (d : Vector (BitVec 64) 32) (p : Nat × Nat) : Vector (BitVec 64) 32 :=
  d.setIfInBounds p.2 (d.toList.getD p.2 0 ^^^ (1#64 <<< p.1))

/-- The cells flipped one after another, and whether any of them held 1 when it was flipped (R171, R172). -/
def drawCells : List (Nat × Nat) → Vector (BitVec 64) 32 × Bool → Vector (BitVec 64) 32 × Bool
  | [], r => r
  | p :: ps, (d, collided) => drawCells ps (flipPixel d p, collided || pixel d p.1 p.2)

/-- `draw_sprite(vx, vy, rows)`: the display after, and the collision (R171). -/
def drawSprite (vx vy : Nat) (rows : List Byte) (d : Vector (BitVec 64) 32) : Vector (BitVec 64) 32 × Bool :=
  drawCells (spriteCells vx vy rows) (d, false)

/-- The targets of a faulting DRW are free values: VF; each cell of the n rows of 8 from (V[x], V[y]), by drawing free rows over them;
dirty, which may be set and is never cleared (R173, 60_exceptions.md R204; log 7). -/
def freeDrawTargets (x y : Reg) (n : Nibble) (s : State) : State :=
  let rows := (List.range n.toNat).map (Config.freeRow s.draws)
  let d := (drawSprite (readV s x).toNat (readV s y).toNat rows s.disp).1
  { writeV VF (Config.freeReg s.draws VF) s with disp := d, dirty := s.dirty || Config.freeDirty s.draws }

/-- R174 -/
def execCls (s : State) : Result := .next (writeDisp (Vector.replicate 32 0) s)

/-- R175: the coordinates and all rows are read before the display is touched. On a fault the cells it may draw, VF and dirty are
free values (log 7). -/
def execDrw (x y : Reg) (n : Nibble) (s : State) : Result :=
  match readBlock (indexAddr s 0) n.toNat s with
  | .error f => .next (raiseExec f (freeDrawTargets x y n s))
  | .ok rows =>
    let (d, collided) := drawSprite (readV s x).toNat (readV s y).toNat rows s.disp
    .next (writeV VF (flag collided) (writeDisp d s))

end Sys2Proof.Machine
end

