-- ==== Sys2Proof/Machine/Flow.lean ====
section
/-! DEFINITION. Control transfer (41_flow.md). -/

namespace Sys2Proof.Machine

/-- R120. On an underflow SP is a free value (log 6). -/
def execRet (s : State) : Result :=
  match popPc s with
  | .ok t => .next t
  | .error f => .next (raiseExec f (freeSp s))

/-- R121 -/
def execJp (nnn : Addr) (s : State) : Result := .next (writePc (addrWord nnn) s)

/-- R122. On an overflow SP and the stack are free values (log 6). -/
def execCall (nnn : Addr) (s : State) : Result :=
  match pushPc s with
  | .ok t => .next (writePc (addrWord nnn) t)
  | .error f => .next (raiseExec f (freeStack s))

/-- R123 -/
def execJpV0 (nnn : Addr) (s : State) : Result := .next (writePc (offsetTarget nnn (readV s 0)) s)

end Sys2Proof.Machine
end

