-- ==== Sys2Proof/Machine/IndexMem.lean ====
section
/-! DEFINITION. The index register and the memory transfers (44_index_memory.md). -/

namespace Sys2Proof.Machine

/-- R160 -/
def execLdI (nnn : Addr) (s : State) : Result := .next (writeI (addrWord nnn) s)

/-- R161: VF is written only where the sum passes 0xFFF. -/
def execAddI (x : Reg) (s : State) : Result :=
  let sum := s.i.toNat + (readV s x).toNat
  if indexOverflows sum then .next (writeI (BitVec.ofNat 16 (sum % 0x1000)) (writeV VF 1 s))
  else .next (writeI (BitVec.ofNat 16 sum) s)

/-- R162 -/
def execLdFont (x : Reg) (s : State) : Result := .next (writeI (fontAddr s.cfg (readV s x)) s)

/-- Bytes stored from I up (R163, R164). On a fault the target bytes that exist are free values (log 7). -/
def storeAtI (bs : List Byte) (s : State) : State :=
  match writeBlock (indexAddr s 0) bs s with
  | .ok t => t
  | .error f => raiseExec f (freeBlock (indexAddr s 0) bs.length s)

/-- R163 -/
def execLdBcd (x : Reg) (s : State) : Result := .next (storeAtI (digits (readV s x)) s)

/-- R164 -/
def execStoreRegs (x : Reg) (s : State) : Result := .next (storeAtI (regBlock s x) s)

/-- R165. On a fault V0..Vx are free values (log 7). -/
def execLoadRegs (x : Reg) (s : State) : Result :=
  match readBlock (indexAddr s 0) (x.val + 1) s with
  | .ok bs => .next (writeRegsFrom 0 bs s)
  | .error f => .next (raiseExec f (freeRegs (x.val + 1) s))

end Sys2Proof.Machine
end

