-- ==== Sys2Proof/Machine/Skip.lean ====
section
/-! DEFINITION. Conditional skips (42_skip.md). -/

namespace Sys2Proof.Machine

/-- skip() where the condition holds: PC <- PC + 2, on top of the cycle's own advance (R130). -/
def skipIf (c : Bool) (s : State) : State := if c then writePc (s.pc + 2) s else s

/-- R131 -/
def execSeImm (x : Reg) (nn : Byte) (s : State) : Result := .next (skipIf (readV s x == nn) s)

/-- R132 -/
def execSneImm (x : Reg) (nn : Byte) (s : State) : Result := .next (skipIf (readV s x != nn) s)

/-- R133 -/
def execSeReg (x y : Reg) (s : State) : Result := .next (skipIf (readV s x == readV s y) s)

/-- R134 -/
def execSneReg (x y : Reg) (s : State) : Result := .next (skipIf (readV s x != readV s y) s)

/-- R135 -/
def execSkp (x : Reg) (s : State) : Result :=
  let (pressed, t) := keyState (readV s x) s
  .next (skipIf pressed t)

/-- R136 -/
def execSknp (x : Reg) (s : State) : Result :=
  let (pressed, t) := keyState (readV s x) s
  .next (skipIf (!pressed) t)

end Sys2Proof.Machine
end

