-- ==== Sys2Proof/Machine/TimerKey.lean ====
section
/-! DEFINITION. The timer and key-wait instructions (46_timer_key.md). -/

namespace Sys2Proof.Machine

/-- R180 -/
def execLdFromDt (x : Reg) (s : State) : Result := .next (writeV x s.dt s)

/-- R181 -/
def execLdToDt (x : Reg) (s : State) : Result := .next (writeDt (readV s x) s)

/-- R182: sound_active is not written. -/
def execLdToSt (x : Reg) (s : State) : Result := .next (writeSt (readV s x) s)

/-- R183: V[x] is written later, by the key press that resolves the wait (60_exceptions.md R216). -/
def execLdKey (x : Reg) (s : State) : Result := .next (writeWait (some x) s)

end Sys2Proof.Machine
end

