-- ==== Sys2Proof/Machine/HostOps.lean ====
section
/-! DEFINITION. The host's operations other than cycle(), and the readouts (60_exceptions.md R212 to R219, 70_reset_and_hazards.md
R250 to R253, 10_state.md R37, R43). -/

namespace Sys2Proof.Machine

/-- reset() (70_reset_and_hazards.md R250): the values of 10_state.md R42; paused and diag_log are unchanged, and so are the model's
own fields. -/
def resetOp (s : State) : State :=
  { State.reset with
    paused := s.paused
    diagLog := s.diagLog
    cfg := s.cfg
    draws := s.draws
    schedule := s.schedule }

/-- The entries of some bytes from `a` up, those equal to the reset contents left out. -/
def romCells (c : Config) : Nat → List Byte → Memory
  | _, [] => []
  | a, b :: bs => if b = Memory.unlisted c a then romCells c (a + 1) bs else (a, b) :: romCells c (a + 1) bs

/-- load_rom(bytes) (70_reset_and_hazards.md R252, R253): reset, then the first 3584 bytes copied from 0x200 up; a longer ROM is
truncated and the truncation logged. -/
def loadRom (bytes : List Byte) (s : State) : State :=
  let r := resetOp s
  let t := { r with mem := romCells r.cfg programBase (bytes.take maxRom) }
  if bytes.length > maxRom then logEvent (.romTruncated bytes.length) t else t

/-- tick_timers() (60_exceptions.md R213): sound_active is set from ST before the decrement. -/
def tickTimers (s : State) : State :=
  { s with
    soundActive := decide (s.st.toNat > 0)
    dt := if s.dt.toNat > 0 then s.dt - 1 else s.dt
    st := if s.st.toNat > 0 then s.st - 1 else s.st }

/-- A key press while a wait is pending: the code goes to the target register, and the wait is over (60_exceptions.md R216). -/
def resolveWait (code : Reg) (s : State) : State :=
  match s.wait with
  | some x => writeWait none (writeV x (BitVec.ofNat 8 code.val) s)
  | none => s

/-- set_key(k, p) for k in 0..15 (60_exceptions.md R215): only a transition to pressed resolves a wait. -/
def setKeyLevel (k : Reg) (p : Bool) (s : State) : State :=
  let was := s.keys[k.val]
  let t := { s with keys := s.keys.set k.val p }
  if p && !was then resolveWait k t else t

/-- set_key(code, p); a code outside 0..15 is refused (60_exceptions.md R215; log 11). -/
def setKey (code : Nat) (p : Bool) (s : State) : Result :=
  if h : code < 16 then .next (setKeyLevel ⟨code, h⟩ p s) else .refused (.keyCodeOutOfRange code)

/-- mark_clean() (60_exceptions.md R217). -/
def markClean (s : State) : State := { s with dirty := false }

/-- set_paused(p) (60_exceptions.md R218). -/
def setPaused (p : Bool) (s : State) : State := { s with paused := p }

/-! ### Readouts (60_exceptions.md R214, R217, R219; 10_state.md R37, R43) -/

/-- The four interpreter states (10_state.md R37). -/
inductive RunState
  | haltedOnError
  | paused
  | waitingForKey
  | running
  deriving DecidableEq, Repr

/-- The interpreter state, by the priority of 10_state.md R37. -/
def runState (s : State) : RunState :=
  if s.halted.isSome then .haltedOnError
  else if s.paused then .paused
  else if s.wait.isSome then .waitingForKey
  else .running

/-- disp[c] in the row-major order of 10_state.md R28. -/
def dispCell (s : State) (c : Nat) : Bool := pixel s.disp (c % 64) (c / 64)

/-- pixel_at(px, py) = disp[py * 64 + px] for px < 64 and py < 32 (60_exceptions.md R219). -/
def pixelAt (s : State) (px : Fin 64) (py : Fin 32) : Bool := dispCell s (py.val * 64 + px.val)

/-- is_dirty() (60_exceptions.md R217). -/
def isDirty (s : State) : Bool := s.dirty

/-- is_sound_active() (60_exceptions.md R214). -/
def isSoundActive (s : State) : Bool := s.soundActive

end Sys2Proof.Machine
end

