-- ==== Sys2Proof/Machine/Cycle.lean ====
section
/-! DEFINITION. cycle() (40_cycle.md R109) and the application of a host operation (60_exceptions.md R212). -/

namespace Sys2Proof.Machine

/-- Whether cycle() returns at once: Paused, Halted or WaitingForKey (40_cycle.md R100). -/
def gated (s : State) : Bool := s.halted.isSome || s.paused || s.wait.isSome

/-- The unrecognised opcode: logged, otherwise a no-op (40_cycle.md R107). -/
def execUnrecognised (w addr : Word) (s : State) : State := logEvent (.unknownOpcode w addr) s

/-- Step 6: last_opcode is recorded after an execute phase that did not fault (40_cycle.md R105, R106). -/
def afterExec (w : Word) : Result → Result
  | .next t => .next (if t.halted.isSome then t else recordOpcode w t)
  | .fault f => .fault f
  | .refused r => .refused r

/-- The execute phase of the word `w` fetched at `addr` (40_cycle.md R104, R105). -/
def runWord (w addr : Word) (s : State) : Result :=
  match decodeWord w with
  | some i => exec i s
  | none => .next (execUnrecognised w addr s)

/-- cycle() (40_cycle.md R109). -/
def cycle (s : State) : Result :=
  if gated s then .next s
  else
    match fetch s with
    | .error f => .next (raise f s.pc s)
    | .ok w => afterExec w (runWord w s.pc (writePc (s.pc + 2) s))

/-- One host operation applied to the whole state (60_exceptions.md R212). -/
def applyOp (op : HostOp) (s : State) : Result :=
  match op with
  | .reset => .next (resetOp s)
  | .loadRom bytes => .next (loadRom bytes s)
  | .cycle => cycle s
  | .tickTimers => .next (tickTimers s)
  | .setKey code p => setKey code p s
  | .markClean => .next (markClean s)
  | .setPaused p => .next (setPaused p s)

/-- The next host operation: the first of the schedule, and cycle() where none is scheduled (log 9). -/
def nextOp (s : State) : HostOp × State :=
  match s.schedule with
  | [] => (.cycle, s)
  | op :: rest => (op, { s with schedule := rest })

/-- The state with a word stored where the next cycle fetches, high byte first (20_memory.md R56), and the gate of
40_cycle.md R100 open with no host operation due before that cycle (log 15). -/
def placeWord (w : Word) (s : State) : State :=
  let t := pokeByte (s.pc.toNat + 1) (w.extractLsb' 0 8) (pokeByte s.pc.toNat (w.extractLsb' 8 8) s)
  { t with halted := none, paused := false, wait := none, schedule := [] }

end Sys2Proof.Machine
end

