-- ==== Sys2Proof/Machine/Step.lean ====
section
/-! DEFINITION. The step: the next host operation, applied (60_exceptions.md R212; log 9). -/

namespace Sys2Proof.Machine

/-- One step of the block. With an empty schedule it is cycle(). -/
def step (s : State) : Host.Outcome State Fault Refusal := applyOp (nextOp s).1 (nextOp s).2

/-- The state whose very next step fetches and runs the instruction with bits `w`, numbered as spec/opcode_table.json numbers them.
Every instruction has 16 bits (30_encoding.md R80), so `_nbits` selects nothing. -/
def State.withFetchWord (s : State) (_nbits w : Nat) : State := placeWord (BitVec.ofNat 16 w) s

end Sys2Proof.Machine
end

