-- ==== Sys2Proof/Safety.lean ====
section
/-! DEFINITION. The terms the statements are written in: the invariant of 10_state.md R41, what a step leaves unchanged, and what a
fault leaves. -/

namespace Sys2Proof.Machine

/-- The invariant of 10_state.md R41, with the canonical form of memory (log 12). R41 (a), SP <= 16, is SP's type. R41 (e) bounds
the slots below SP; while the block is not halted every slot has the bound. -/
structure Inv (s : State) : Prop where
  memory : Memory.wf s.cfg s.mem = true
  index : s.i.toNat ≤ 0xFFF
  counter : s.pc.toNat ≤ 0x10FE
  notHaltedAndWaiting : ¬ (s.halted.isSome = true ∧ s.wait.isSome = true)
  returns : ∀ (k : Nat) (h : k < 16), k < s.sp.val ∨ s.halted = none → s.stack[k].toNat ≤ 0x1000

/-- Only general registers differ, and among them only those `p` names. -/
def OnlyRegs (p : Reg → Prop) (s t : State) : Prop :=
  t = { s with v := t.v } ∧ ∀ k, ¬ p k → readV t k = readV s k

/-- Every byte of memory is the same but for the addresses `p` names. -/
def SameBytesBut (p : Nat → Prop) (s t : State) : Prop := ∀ a, ¬ p a → byteAt t a = byteAt s a

/-- `t` is halted, and its record has the kind and the detail of the fault `f` (60_exceptions.md R200, R204). -/
def RecordsFault (f : Fault) (t : State) : Prop := t.halted.map FaultRecord.fault = some f

/-- A set bit of the sprite of n bytes at I, drawn at (V[x], V[y]), lands on the cell (px, py) (45_display.md R171, R175). -/
def SpriteCovers (s : State) (x y : Reg) (n : Nibble) (px py : Nat) : Prop :=
  ∃ r c : Nat, r < n.toNat ∧ c < 8 ∧ (byteAt s (s.i.toNat + r)).getLsbD (7 - c) = true ∧
    px = ((readV s x).toNat + c) % 64 ∧ py = ((readV s y).toNat + r) % 32

/-- The cell (px, py) is one of the n rows of 8 cells from (V[x], V[y]), wrapped on both axes: the cells DRW may write, whatever its
sprite bytes (45_display.md R171, R175). -/
def InSpriteBox (s : State) (x y : Reg) (n : Nibble) (px py : Nat) : Prop :=
  ∃ r c : Nat, r < n.toNat ∧ c < 8 ∧ px = ((readV s x).toNat + c) % 64 ∧ py = ((readV s y).toNat + r) % 32

/-- The sprite bytes of a DRW exist: none is read where n = 0 (45_display.md R175). -/
def SpriteReadable (s : State) (n : Nibble) : Prop := n.toNat = 0 ∨ s.i.toNat + n.toNat ≤ 4096

/-- The general register an instruction names as its destination in the opcode table, Fx65 apart. -/
def destination : Instr → Option Reg
  | .ldImm x _ | .addImm x _ | .rnd x _ | .ldFromDt x => some x
  | .ldReg x _ | .orReg x _ | .andReg x _ | .xorReg x _ | .addReg x _ => some x
  | .sub x _ | .shr x _ | .subn x _ | .shl x _ => some x
  | .cls | .ret | .jp _ | .call _ | .seImm _ _ | .sneImm _ _ | .seReg _ _ | .sneReg _ _ => none
  | .ldI _ | .jpV0 _ | .drw _ _ _ | .skp _ | .sknp _ | .ldKey _ | .ldToDt _ | .ldToSt _ => none
  | .addI _ | .ldFont _ | .ldBcd _ | .storeRegs _ | .loadRegs _ => none

/-- The instructions that write VF as a side effect, whatever their x field (10_state.md R22). -/
def writesFlag : Instr → Bool
  | .addReg _ _ | .sub _ _ | .shr _ _ | .subn _ _ | .shl _ _ | .drw _ _ _ | .addI _ => true
  | .cls | .ret | .jp _ | .call _ | .seImm _ _ | .sneImm _ _ | .seReg _ _ | .sneReg _ _ => false
  | .ldImm _ _ | .addImm _ _ | .ldReg _ _ | .orReg _ _ | .andReg _ _ | .xorReg _ _ | .rnd _ _ => false
  | .ldI _ | .jpV0 _ | .skp _ | .sknp _ | .ldFromDt _ | .ldKey _ | .ldToDt _ | .ldToSt _ => false
  | .ldFont _ | .ldBcd _ | .storeRegs _ | .loadRegs _ => false

/-- The next step is a cycle() that passes the gate of 40_cycle.md R100: the state is Running and no host operation is due. -/
structure CycleDue (s : State) : Prop where
  noneScheduled : s.schedule = []
  notHalted : s.halted = none
  notPaused : s.paused = false
  notWaiting : s.wait = none

/-- The word at PC, the byte at PC the high byte (20_memory.md R56). -/
def wordAtPc (s : State) : Word := wordOfBytes (byteAt s s.pc.toNat) (byteAt s (s.pc.toNat + 1))

end Sys2Proof.Machine
end

