-- ==== Sys2Proof/Certificates/Slice0/Obligations.lean ====
section
/-! DEFINITION. The statements for the provers. Each docstring names the rules it formalises. "Completes" means that exec answers a
next state. In a statement about exec, s is the state of the execute phase, whose PC is the fetch address plus 2 (40_cycle.md
R103). A frame `t = { s with f := t.f }` says that every field but f, memory included, is the same. -/

open Sys2Proof Sys2Proof.Machine

/-! ### Encoding -/

/-- Decoding the word, and the bytes, of an instruction gives it back. Derived from the opcode map of 30_encoding.md R86 and the byte
order of 20_memory.md R56; the encoder is the model's. -/
def Obligations.DecodeOfEncodeIsTheInstruction : Prop :=
  ∀ (i : Instr) (rest : List Byte),
    decodeWord (encode i) = some i ∧ decode (encodeBytes i ++ rest) = .ok (i, rest)

/-- A word that decodes is the word of the instruction it decodes to, so no bit of it is dropped and no two words share an
instruction, SHR and SHL with their unread y included. Derived from 30_encoding.md R86 and R93. -/
def Obligations.EncodeOfDecodeIsTheWord : Prop :=
  ∀ (w : Word) (i : Instr), decodeWord w = some i → encode i = w

/-- Which words are instructions, by their nibbles; every other word is unrecognised. Derived from 30_encoding.md R85 to R88; that the
fixed nibbles of groups 0, 5 and 9 are part of the match is the spec's decision D7. -/
def Obligations.RecognisedWordsAreTheTables : Prop :=
  ∀ w : Word, (decodeWord w).isSome = true ↔
    w.toNat = 0x00E0 ∨ w.toNat = 0x00EE ∨
    w.toNat / 4096 ∈ [0x1, 0x2, 0x3, 0x4, 0x6, 0x7, 0xA, 0xB, 0xC, 0xD] ∨
    (w.toNat / 4096 ∈ [0x5, 0x9] ∧ w.toNat % 16 = 0) ∨
    (w.toNat / 4096 = 0x8 ∧ w.toNat % 16 ∈ [0, 1, 2, 3, 4, 5, 6, 7, 0xE]) ∨
    (w.toNat / 4096 = 0xE ∧ w.toNat % 256 ∈ [0x9E, 0xA1]) ∨
    (w.toNat / 4096 = 0xF ∧ w.toNat % 256 ∈ [0x07, 0x0A, 0x15, 0x18, 0x1E, 0x29, 0x33, 0x55, 0x65])

/-- Words written out from the patterns of 30_encoding.md R86, one or more of every family, decode to their instructions. -/
def Obligations.WordsOfEveryFamilyDecode : Prop :=
  decodeWord 0x00E0 = some .cls ∧ decodeWord 0x00EE = some .ret ∧ decodeWord 0x120C = some (.jp 0x20C) ∧
  decodeWord 0x3305 = some (.seImm 3 0x05) ∧ decodeWord 0x5120 = some (.seReg 1 2) ∧
  decodeWord 0x8014 = some (.addReg 0 1) ∧ decodeWord 0xA300 = some (.ldI 0x300) ∧
  decodeWord 0xD125 = some (.drw 1 2 5) ∧ decodeWord 0xE29E = some (.skp 2) ∧
  decodeWord 0xF315 = some (.ldToDt 3) ∧ decodeWord 0xF265 = some (.loadRegs 2) ∧ decodeWord 0x8008 = none

/-- The line written for an instruction assembles to it, and of every line with an immediate, one whose immediate does not fit its
field is refused. Derived from 30_encoding.md R91 and R92 (the syntax is the spec's own choice, its decision D29). -/
def Obligations.AssemblerLinesReadBack : Prop :=
  (∀ i : Instr, assemble (disassemble i) = some i) ∧
  (∀ (m : Mnemonic) (x : Reg) (k : Nat), m ∈ [.SE, .SNE, .LD, .ADD, .RND] →
    Line.wellFormed ⟨m, [.reg x, .num k]⟩ = decide (k ≤ 255)) ∧
  (∀ (m : Mnemonic) (k : Nat), m ∈ [.JP, .CALL] → Line.wellFormed ⟨m, [.num k]⟩ = decide (k ≤ 0xFFF)) ∧
  (∀ k : Nat, Line.wellFormed ⟨.LD, [.I, .num k]⟩ = decide (k ≤ 0xFFF)) ∧
  (∀ (x : Reg) (k : Nat), Line.wellFormed ⟨.JP, [.reg x, .num k]⟩ = decide (x = 0 ∧ k ≤ 0xFFF)) ∧
  (∀ (x y : Reg) (k : Nat), Line.wellFormed ⟨.DRW, [.reg x, .reg y, .num k]⟩ = decide (k ≤ 15))

/-! ### The cycle -/

/-- When the bytes at PC decode to an instruction, a step is that instruction's execute phase with PC advanced by 2, and last_opcode
is then recorded unless the phase faulted. Derived from 40_cycle.md R101 and R103 to R106; that a step with nothing scheduled is a
cycle() is the model's (log 9). -/
def Obligations.StepRunsTheDecodedInstruction : Prop :=
  ∀ (s : State) (i : Instr), CycleDue s → s.pc.toNat ≤ 0xFFE → decodeWord (wordAtPc s) = some i →
    step s =
      match exec i { s with pc := s.pc + 2 } with
      | .next t => .next (if t.halted.isSome then t else { t with lastOpcode := some (wordAtPc s) })
      | .fault f => .fault f
      | .refused r => .refused r

/-- A cycle() that is Halted, Paused or WaitingForKey changes nothing, not even the diagnostics (40_cycle.md R100). -/
def Obligations.GatedCycleChangesNothing : Prop :=
  ∀ s : State, (s.halted ≠ none ∨ s.paused = true ∨ s.wait ≠ none) → cycle s = .next s

/-- Each step applies one host operation: the oldest scheduled one, and cycle() where none is scheduled. Derived from
60_exceptions.md R212; the schedule is the model's (log 9). -/
def Obligations.StepAppliesOneOperation : Prop :=
  ∀ s : State,
    (s.schedule = [] → step s = cycle s) ∧
    (∀ op rest, s.schedule = op :: rest → step s = applyOp op { s with schedule := rest })

/-- The fetch reads two bytes, big-endian, at PC <= 0xFFE; at a higher PC it halts the block, and the record names the first byte
outside memory and the PC. Derived from 40_cycle.md R101 and R102, which the spec derives in turn, and from R204 of
60_exceptions.md: nothing but PC and last_opcode is then unspecified (the spec's decision D4; log 4). -/
def Obligations.FetchReadsTwoBytesOrHalts : Prop :=
  ∀ s : State,
    (s.pc.toNat ≤ 0xFFE → ∃ w : Word, fetch s = .ok w ∧
      w.toNat = (byteAt s s.pc.toNat).toNat * 256 + (byteAt s (s.pc.toNat + 1)).toNat) ∧
    (runState s = .running → 0xFFF ≤ s.pc.toNat → ∃ t, cycle s = .next t ∧
      t.halted = some { fault := .memOutOfBounds .read (if s.pc.toNat = 0xFFF then 0x1000 else s.pc.toNat),
                        fetchedAt := s.pc } ∧
      t = { s with halted := t.halted, pc := t.pc, lastOpcode := t.lastOpcode, draws := t.draws })

/-- An unrecognised word is a logged no-op: PC advances, the word is recorded, and the state stays Running (40_cycle.md R107,
R108). -/
def Obligations.UnrecognisedWordIsALoggedNoOp : Prop :=
  ∀ s : State, runState s = .running → s.pc.toNat ≤ 0xFFE → decodeWord (wordAtPc s) = none →
    ∃ t, cycle s = .next t ∧
      t.pc.toNat = s.pc.toNat + 2 ∧ t.lastOpcode = some (wordAtPc s) ∧
      t.diagLog = s.diagLog ++ [.unknownOpcode (wordAtPc s) s.pc] ∧ runState t = .running ∧
      t = { s with pc := t.pc, lastOpcode := t.lastOpcode, diagLog := t.diagLog }

/-- Every step answers a next state but one: set_key with a code outside 0..15 is refused. In particular no step answers a fault.
Derived from 60_exceptions.md R212 and R215 (the spec's decision D33; logs 4, 9, 11). -/
def Obligations.StepAnswersNextOrRefusesABadKey : Prop :=
  ∀ s : State, (∃ t, step s = .next t) ∨
    ∃ (k : Nat) (p : Bool) (rest : List HostOp),
      s.schedule = .setKey k p :: rest ∧ 16 ≤ k ∧ step s = .refused (.keyCodeOutOfRange k)

/-- A self-jump only records itself: the idle loop. Derived from 41_flow.md R121 and 40_cycle.md R106 (the spec's decisions D18 and
D31; log 9). -/
def Obligations.SelfJumpOnlyRecordsItself : Prop :=
  ∀ (s : State) (nnn : Addr), CycleDue s → s.pc.toNat = nnn.toNat → nnn.toNat ≤ 0xFFE → wordAtPc s = packNNN 0x1 nnn →
    step s = .next { s with lastOpcode := some (packNNN 0x1 nnn) }

/-! ### Memory -/

/-- MemRead and MemWrite inside memory, read after write, and the fault of each outside it (20_memory.md R51, R52, R53). -/
def Obligations.MemoryPrimitivesReadWhatWasWritten : Prop :=
  ∀ (a : Nat) (b : Byte) (s : State),
    (a < 4096 → memRead a s = .ok (byteAt s a) ∧
      ∃ t, memWrite a b s = .ok t ∧ memRead a t = .ok b ∧ t = { s with mem := t.mem } ∧
        ∀ c, c ≠ a → byteAt t c = byteAt s c) ∧
    (4096 ≤ a → memRead a s = .error (.memOutOfBounds .read a) ∧
      memWrite a b s = .error (.memOutOfBounds .write a))

/-- Canonical memories that read the same everywhere are the same data (log 12). -/
def Obligations.EqualReadsGiveEqualMemory : Prop :=
  ∀ (c : Config) (m m' : Memory), Memory.wf c m = true → Memory.wf c m' = true →
    (∀ a, a < 4096 → Memory.get c m a = Memory.get c m' a) → m = m'

/-- A store over the next instruction is seen by the very next fetch. Derived from 20_memory.md R56 and R64, which the spec derives in
turn. -/
def Obligations.StoredBytesAreFetchedNext : Prop :=
  ∀ (s t : State) (x : Reg), s.i = s.pc → 1 ≤ x.val → s.i.toNat + x.val < 4096 → exec (.storeRegs x) s = .next t →
    fetch t = .ok (wordOfBytes (readV s 0) (readV s 1))

/-! ### Flow control -/

/-- JP nnn completes: the target is absolute, and nothing but PC changes (41_flow.md R121). -/
def Obligations.JumpSetsThePc : Prop :=
  ∀ (nnn : Addr) (s : State),
    decodeWord (packNNN 0x1 nnn) = some (.jp nnn) ∧
    ∃ t, exec (.jp nnn) s = .next t ∧ t.pc.toNat = nnn.toNat ∧ t = { s with pc := t.pc }

/-- JP V0, nnn completes: the sum is not reduced to 12 bits, and the register is V0 whatever nnn is. Derived from 41_flow.md R123
(the spec's decision D26). -/
def Obligations.JumpWithOffsetSetsThePc : Prop :=
  ∀ (nnn : Addr) (s : State),
    decodeWord (packNNN 0xB nnn) = some (.jpV0 nnn) ∧
    ∃ t, exec (.jpV0 nnn) s = .next t ∧ t.pc.toNat = nnn.toNat + (readV s 0).toNat ∧ t = { s with pc := t.pc }

/-- CALL nnn completes while SP < 16: it pushes the advanced PC. With SP = 16 it halts the block; SP and the stack, its targets, are
then unspecified. Derived from 41_flow.md R122 (the fault is the spec's decision D4, 16 entries its D5; logs 4, 6). -/
def Obligations.CallPushesTheReturnAddress : Prop :=
  ∀ (nnn : Addr) (s : State),
    decodeWord (packNNN 0x2 nnn) = some (.call nnn) ∧
    (s.sp.val < 16 → ∃ t, exec (.call nnn) s = .next t ∧ t.sp.val = s.sp.val + 1 ∧ t.pc.toNat = nnn.toNat ∧
      (∀ (k : Nat) (_ : k < 16), t.stack[k] = if k = s.sp.val then s.pc else s.stack[k]) ∧
      t = { s with stack := t.stack, sp := t.sp, pc := t.pc }) ∧
    (s.sp.val = 16 → ∃ t, exec (.call nnn) s = .next t ∧ RecordsFault (.stackOverflow 16) t ∧
      t = { s with halted := t.halted, pc := t.pc, lastOpcode := t.lastOpcode, draws := t.draws,
                   sp := t.sp, stack := t.stack })

/-- RET completes while SP > 0: it pops into PC and leaves the slot as it is. With SP = 0 it halts the block with StackUnderflow; SP is
then unspecified. Derived from 41_flow.md R120 and 60_exceptions.md R204 (the spec's decision D4; logs 4, 6). -/
def Obligations.RetPopsTheReturnAddress : Prop :=
  ∀ s : State,
    decodeWord 0x00EE = some .ret ∧
    (0 < s.sp.val → ∃ t, exec .ret s = .next t ∧ t.sp.val + 1 = s.sp.val ∧
      (∀ (k : Nat) (_ : k < 16), k + 1 = s.sp.val → t.pc = s.stack[k]) ∧ t = { s with sp := t.sp, pc := t.pc }) ∧
    (s.sp.val = 0 → ∃ t, exec .ret s = .next t ∧ RecordsFault (.stackUnderflow 0) t ∧
      t = { s with halted := t.halted, pc := t.pc, lastOpcode := t.lastOpcode, draws := t.draws, sp := t.sp })

/-- A RET that finds the stack a CALL left returns to the instruction after the CALL. Derived from 41_flow.md R120 and R122 and
70_reset_and_hazards.md R257 (the spec's decision D5). -/
def Obligations.CallThenRetReturns : Prop :=
  ∀ (nnn : Addr) (s : State), s.sp.val < 16 →
    ∃ t, exec (.call nnn) s = .next t ∧ ∀ t' : State, t'.sp = t.sp → t'.stack = t.stack →
      ∃ u, exec .ret t' = .next u ∧ u.pc = s.pc ∧ u.sp = s.sp

/-! ### Skips -/

/-- SE and SNE complete: PC is advanced by a further 2 exactly where the condition holds, and nothing else changes (42_skip.md
R131 to R134). -/
def Obligations.SkipsOnRegisters : Prop :=
  ∀ (x y : Reg) (nn : Byte) (s : State),
    (decodeWord (packXNN 0x3 x nn) = some (.seImm x nn) ∧
      ∃ t, exec (.seImm x nn) s = .next t ∧ t.pc = (if readV s x = nn then s.pc + 2 else s.pc) ∧
        t = { s with pc := t.pc }) ∧
    (decodeWord (packXNN 0x4 x nn) = some (.sneImm x nn) ∧
      ∃ t, exec (.sneImm x nn) s = .next t ∧ t.pc = (if readV s x = nn then s.pc else s.pc + 2) ∧
        t = { s with pc := t.pc }) ∧
    (decodeWord (packXYN 0x5 x y 0) = some (.seReg x y) ∧
      ∃ t, exec (.seReg x y) s = .next t ∧ t.pc = (if readV s x = readV s y then s.pc + 2 else s.pc) ∧
        t = { s with pc := t.pc }) ∧
    (decodeWord (packXYN 0x9 x y 0) = some (.sneReg x y) ∧
      ∃ t, exec (.sneReg x y) s = .next t ∧ t.pc = (if readV s x = readV s y then s.pc else s.pc + 2) ∧
        t = { s with pc := t.pc })

/-- SKP and SKNP complete: they read the key level for V[x] < 16, and for a greater V[x] the open parameter KEY_OOB, drawn afresh at
each execution. Derived from 42_skip.md R135 to R137 (the spec's decision D8). The drawn value is free: nothing is known of it
(log 3). -/
def Obligations.SkipsOnKeys : Prop :=
  ∀ (x : Reg) (s : State),
    decodeWord (packXNN 0xE x 0x9E) = some (.skp x) ∧ decodeWord (packXNN 0xE x 0xA1) = some (.sknp x) ∧
    (∀ k : Fin 16, (readV s x).toNat = k.val →
      (∃ t, exec (.skp x) s = .next t ∧ t.pc = (if s.keys[k.val] = true then s.pc + 2 else s.pc) ∧
        t = { s with pc := t.pc }) ∧
      (∃ t, exec (.sknp x) s = .next t ∧ t.pc = (if s.keys[k.val] = true then s.pc else s.pc + 2) ∧
        t = { s with pc := t.pc })) ∧
    (16 ≤ (readV s x).toNat →
      (∃ t, exec (.skp x) s = .next t ∧
        t.pc = (if Config.keyOutOfRange s.draws (readV s x) = true then s.pc + 2 else s.pc) ∧
        t.draws = s.draws + 1 ∧ t = { s with pc := t.pc, draws := t.draws }) ∧
      (∃ t, exec (.sknp x) s = .next t ∧
        t.pc = (if Config.keyOutOfRange s.draws (readV s x) = true then s.pc else s.pc + 2) ∧
        t.draws = s.draws + 1 ∧ t = { s with pc := t.pc, draws := t.draws }))

/-! ### Arithmetic and logic -/

/-- LD Vx, nn and ADD Vx, nn complete and write Vx only; no flag is written (43_alu.md R141, R142). -/
def Obligations.LoadAndAddImmediate : Prop :=
  ∀ (x : Reg) (nn : Byte) (s : State),
    (decodeWord (packXNN 0x6 x nn) = some (.ldImm x nn) ∧
      ∃ t, exec (.ldImm x nn) s = .next t ∧ readV t x = nn ∧ OnlyRegs (· = x) s t) ∧
    (decodeWord (packXNN 0x7 x nn) = some (.addImm x nn) ∧
      ∃ t, exec (.addImm x nn) s = .next t ∧ (readV t x).toNat = ((readV s x).toNat + nn.toNat) % 256 ∧
        OnlyRegs (· = x) s t)

/-- LD, OR, AND and XOR of two registers complete and write Vx only; no flag is written (43_alu.md R143 to R146). -/
def Obligations.CopyAndLogic : Prop :=
  ∀ (x y : Reg) (s : State),
    (decodeWord (packXYN 0x8 x y 0x0) = some (.ldReg x y) ∧
      ∃ t, exec (.ldReg x y) s = .next t ∧ readV t x = readV s y ∧ OnlyRegs (· = x) s t) ∧
    (decodeWord (packXYN 0x8 x y 0x1) = some (.orReg x y) ∧
      ∃ t, exec (.orReg x y) s = .next t ∧ readV t x = readV s x ||| readV s y ∧ OnlyRegs (· = x) s t) ∧
    (decodeWord (packXYN 0x8 x y 0x2) = some (.andReg x y) ∧
      ∃ t, exec (.andReg x y) s = .next t ∧ readV t x = readV s x &&& readV s y ∧ OnlyRegs (· = x) s t) ∧
    (decodeWord (packXYN 0x8 x y 0x3) = some (.xorReg x y) ∧
      ∃ t, exec (.xorReg x y) s = .next t ∧ readV t x = readV s x ^^^ readV s y ∧ OnlyRegs (· = x) s t)

/-- ADD Vx, Vy completes: Vx is the sum modulo 256 and VF the carry, lost where x = F (43_alu.md R147). -/
def Obligations.AddReportsTheCarry : Prop :=
  ∀ (x y : Reg) (s : State),
    decodeWord (packXYN 0x8 x y 0x4) = some (.addReg x y) ∧
    ∃ t, exec (.addReg x y) s = .next t ∧
      (readV t x).toNat = ((readV s x).toNat + (readV s y).toNat) % 256 ∧
      (x ≠ 15 → (readV t 15).toNat = if (readV s x).toNat + (readV s y).toNat > 255 then 1 else 0) ∧
      OnlyRegs (fun k => k = x ∨ k = 15) s t

/-- SUB Vx, Vy completes: VF is 1 exactly where Vx > Vy, and Vx - Vy is taken after VF is written. Derived from 43_alu.md R148 (the
strict comparison and the written order are the spec's decisions D28 and D6; log 13). -/
def Obligations.SubtractWithStrictFlag : Prop :=
  ∀ (x y : Reg) (s : State),
    decodeWord (packXYN 0x8 x y 0x5) = some (.sub x y) ∧
    ∃ t, exec (.sub x y) s = .next t ∧ OnlyRegs (fun k => k = x ∨ k = 15) s t ∧
      ∀ f : Nat, f = (if (readV s x).toNat > (readV s y).toNat then 1 else 0) →
        (x ≠ 15 → (readV t 15).toNat = f) ∧
        (x ≠ 15 → y ≠ 15 → (readV t x).toNat = ((readV s x).toNat + 256 - (readV s y).toNat) % 256) ∧
        (x ≠ 15 → y = 15 → (readV t x).toNat = ((readV s x).toNat + 256 - f) % 256) ∧
        (x = 15 → y ≠ 15 → (readV t x).toNat = (f + 256 - (readV s y).toNat) % 256) ∧
        (x = 15 → y = 15 → (readV t x).toNat = 0)

/-- SUBN Vx, Vy completes: VF is 1 exactly where Vy > Vx, and Vy - Vx is taken after VF is written. Derived from 43_alu.md R150 (the
strict comparison and the written order are the spec's decisions D28 and D6; log 13). -/
def Obligations.ReverseSubtractWithStrictFlag : Prop :=
  ∀ (x y : Reg) (s : State),
    decodeWord (packXYN 0x8 x y 0x7) = some (.subn x y) ∧
    ∃ t, exec (.subn x y) s = .next t ∧ OnlyRegs (fun k => k = x ∨ k = 15) s t ∧
      ∀ f : Nat, f = (if (readV s y).toNat > (readV s x).toNat then 1 else 0) →
        (x ≠ 15 → (readV t 15).toNat = f) ∧
        (x ≠ 15 → y ≠ 15 → (readV t x).toNat = ((readV s y).toNat + 256 - (readV s x).toNat) % 256) ∧
        (x ≠ 15 → y = 15 → (readV t x).toNat = (f + 256 - (readV s x).toNat) % 256) ∧
        (x = 15 → y ≠ 15 → (readV t x).toNat = ((readV s y).toNat + 256 - f) % 256) ∧
        (x = 15 → y = 15 → (readV t x).toNat = 0)

/-- SHR and SHL complete for every y, which they do not read: VF is the bit shifted out, and where x = F it is shifted in turn. Derived
from 43_alu.md R149 and R151 (the written order is the spec's decision D6; log 13). -/
def Obligations.ShiftsMoveOneBit : Prop :=
  ∀ (x y : Reg) (s : State),
    (decodeWord (packXYN 0x8 x y 0x6) = some (.shr x y) ∧
      ∃ t, exec (.shr x y) s = .next t ∧ OnlyRegs (fun k => k = x ∨ k = 15) s t ∧
        (x ≠ 15 → (readV t 15).toNat = (readV s x).toNat % 2 ∧ (readV t x).toNat = (readV s x).toNat / 2) ∧
        (x = 15 → (readV t x).toNat = 0) ∧ ∀ y', exec (.shr x y') s = .next t) ∧
    (decodeWord (packXYN 0x8 x y 0xE) = some (.shl x y) ∧
      ∃ t, exec (.shl x y) s = .next t ∧ OnlyRegs (fun k => k = x ∨ k = 15) s t ∧
        (x ≠ 15 → (readV t 15).toNat = (readV s x).toNat / 128 ∧ (readV t x).toNat = (readV s x).toNat * 2 % 256) ∧
        (x = 15 → (readV t x).toNat = (readV s x).toNat / 128 * 2) ∧ ∀ y', exec (.shl x y') s = .next t)

/-- RND completes: Vx is a fresh free byte under the mask, so its bits outside the mask are 0. Derived from 43_alu.md R152 and R153 (the
spec's decision D9). The drawn byte is free: nothing is known of it (logs 2, 10). -/
def Obligations.RandomByteUnderTheMask : Prop :=
  ∀ (x : Reg) (nn : Byte) (s : State),
    decodeWord (packXNN 0xC x nn) = some (.rnd x nn) ∧
    ∃ t, exec (.rnd x nn) s = .next t ∧ readV t x = Config.randomByte s.draws &&& nn ∧ t.draws = s.draws + 1 ∧
      (∀ b, nn.getLsbD b = false → (readV t x).getLsbD b = false) ∧
      (∀ k, k ≠ x → readV t k = readV s k) ∧ t = { s with v := t.v, draws := t.draws }

/-! ### Index register and memory transfers -/

/-- LD I, nnn completes and writes I only (44_index_memory.md R160). -/
def Obligations.LoadIndexWritesI : Prop :=
  ∀ (nnn : Addr) (s : State), decodeWord (packNNN 0xA nnn) = some (.ldI nnn) ∧
    ∃ t, exec (.ldI nnn) s = .next t ∧ t.i.toNat = nnn.toNat ∧ t = { s with i := t.i }

/-- LD F, Vx completes and writes I only: the address uses the whole byte, whatever FONT_BASE is. Derived from 44_index_memory.md
R162 (the spec's decisions D2 and D37; log 1). -/
def Obligations.FontAddressUsesTheWholeByte : Prop :=
  ∀ (x : Reg) (s : State), decodeWord (packXNN 0xF x 0x29) = some (.ldFont x) ∧
    ∃ t, exec (.ldFont x) s = .next t ∧ t.i.toNat = s.cfg.fontBase.val + (readV s x).toNat * 5 ∧
      t = { s with i := t.i }

/-- ADD I, Vx completes: past 0xFFF the sum is masked and VF set, otherwise VF is not written. Derived from 44_index_memory.md R161 (the
spec's decision D24; log 13). -/
def Obligations.AddIndexFlagsOverflow : Prop :=
  ∀ (x : Reg) (s : State),
    decodeWord (packXNN 0xF x 0x1E) = some (.addI x) ∧
    (s.i.toNat + (readV s x).toNat ≤ 0xFFF → ∃ t, exec (.addI x) s = .next t ∧
      t.i.toNat = s.i.toNat + (readV s x).toNat ∧ t = { s with i := t.i }) ∧
    (0xFFF < s.i.toNat + (readV s x).toNat → ∃ t, exec (.addI x) s = .next t ∧
      t.i.toNat = (s.i.toNat + (readV s x).toNat) % 0x1000 ∧ readV t 15 = 1 ∧
      (∀ k, k ≠ 15 → readV t k = readV s k) ∧ t = { s with i := t.i, v := t.v })

/-- LD B, Vx completes where its three bytes exist, and stores the decimal digits of Vx; otherwise it halts the block at the first
address outside memory, and its target bytes are then unspecified. I is unchanged. Derived from 44_index_memory.md R163 and
60_exceptions.md R204 (the spec's decision D4; logs 4, 7). -/
def Obligations.StoreDecimalDigits : Prop :=
  ∀ (x : Reg) (s : State),
    decodeWord (packXNN 0xF x 0x33) = some (.ldBcd x) ∧
    (s.i.toNat ≤ 0xFFD → ∃ t, exec (.ldBcd x) s = .next t ∧
      (byteAt t s.i.toNat).toNat = (readV s x).toNat / 100 ∧
      (byteAt t (s.i.toNat + 1)).toNat = (readV s x).toNat / 10 % 10 ∧
      (byteAt t (s.i.toNat + 2)).toNat = (readV s x).toNat % 10 ∧
      SameBytesBut (fun a => s.i.toNat ≤ a ∧ a < s.i.toNat + 3) s t ∧ t = { s with mem := t.mem }) ∧
    (0xFFE ≤ s.i.toNat → ∃ t, exec (.ldBcd x) s = .next t ∧
      RecordsFault (.memOutOfBounds .write (if s.i.toNat < 4096 then 4096 else s.i.toNat)) t ∧
      SameBytesBut (fun a => s.i.toNat ≤ a ∧ a < s.i.toNat + 3) s t ∧
      t = { s with halted := t.halted, pc := t.pc, lastOpcode := t.lastOpcode, draws := t.draws, mem := t.mem })

/-- LD [I], Vx completes where its x + 1 bytes exist, and stores V0..Vx; otherwise it halts the block at the first address outside
memory. I is unchanged. Derived from 44_index_memory.md R164 (the fault is the spec's decision D4, x + 1 bytes its D27; logs 4, 7, 13). -/
def Obligations.StoreRegistersAtI : Prop :=
  ∀ (x : Reg) (s : State),
    decodeWord (packXNN 0xF x 0x55) = some (.storeRegs x) ∧
    (s.i.toNat + x.val < 4096 → ∃ t, exec (.storeRegs x) s = .next t ∧
      (∀ k : Reg, k ≤ x → byteAt t (s.i.toNat + k.val) = readV s k) ∧
      SameBytesBut (fun a => s.i.toNat ≤ a ∧ a < s.i.toNat + (x.val + 1)) s t ∧ t = { s with mem := t.mem }) ∧
    (4096 ≤ s.i.toNat + x.val → ∃ t, exec (.storeRegs x) s = .next t ∧
      RecordsFault (.memOutOfBounds .write (if s.i.toNat < 4096 then 4096 else s.i.toNat)) t ∧
      SameBytesBut (fun a => s.i.toNat ≤ a ∧ a < s.i.toNat + (x.val + 1)) s t ∧
      t = { s with halted := t.halted, pc := t.pc, lastOpcode := t.lastOpcode, draws := t.draws, mem := t.mem })

/-- LD Vx, [I] completes where its x + 1 bytes exist, and loads V0..Vx; otherwise it halts the block at the first address outside
memory. I is unchanged. Derived from 44_index_memory.md R165 (the fault is the spec's decision D4, x + 1 bytes its D27; logs 4, 7, 13). -/
def Obligations.LoadRegistersFromI : Prop :=
  ∀ (x : Reg) (s : State),
    decodeWord (packXNN 0xF x 0x65) = some (.loadRegs x) ∧
    (s.i.toNat + x.val < 4096 → ∃ t, exec (.loadRegs x) s = .next t ∧
      (∀ k : Reg, k ≤ x → readV t k = byteAt s (s.i.toNat + k.val)) ∧ OnlyRegs (· ≤ x) s t) ∧
    (4096 ≤ s.i.toNat + x.val → ∃ t, exec (.loadRegs x) s = .next t ∧
      RecordsFault (.memOutOfBounds .read (if s.i.toNat < 4096 then 4096 else s.i.toNat)) t ∧
      (∀ k : Reg, x < k → readV t k = readV s k) ∧
      t = { s with halted := t.halted, pc := t.pc, lastOpcode := t.lastOpcode, draws := t.draws, v := t.v })

/-- Registers stored by LD [I], Vx are loaded back by LD Vx, [I] with the same I over the same memory. Derived from 44_index_memory.md
R164 and R165 and 20_memory.md R53 (the spec's decision D27). -/
def Obligations.StoreThenLoadRestoresRegisters : Prop :=
  ∀ (x : Reg) (s t u : State), s.i.toNat + x.val < 4096 → exec (.storeRegs x) s = .next t →
    u.mem = t.mem → u.cfg = t.cfg → u.i = t.i →
    ∃ w, exec (.loadRegs x) u = .next w ∧ ∀ k : Reg, k ≤ x → readV w k = readV s k

/-! ### Display -/

/-- CLS completes: every cell is 0 and dirty is 1, whatever they were (45_display.md R174). -/
def Obligations.ClearZeroesEveryCell : Prop :=
  ∀ s : State, decodeWord 0x00E0 = some .cls ∧
    ∃ t, exec .cls s = .next t ∧ (∀ px py, px < 64 → py < 32 → pixel t.disp px py = false) ∧ t.dirty = true ∧
      t = { s with disp := t.disp, dirty := t.dirty }

/-- DRW completes where its sprite bytes exist: each cell a set bit lands on is flipped, with wraparound on both axes, VF says whether
any of them held 1, and dirty is 1. Otherwise it halts the block at the first address outside memory; VF, the cells of the n rows
of 8 it may draw and a dirty flag of 0 are then unspecified, every other cell is as it was, and a dirty flag of 1 stays. Derived from 45_display.md R171 to R173 and R175 (the fault is the spec's decision D4, n rows its D27; logs 4, 7,
13). -/
def Obligations.DrawFlipsTheSpriteCells : Prop :=
  ∀ (x y : Reg) (n : Nibble) (s : State),
    decodeWord (packXYN 0xD x y n) = some (.drw x y n) ∧
    (SpriteReadable s n → ∃ t, exec (.drw x y n) s = .next t ∧
      (∀ px py, px < 64 → py < 32 →
        (pixel t.disp px py = true ↔ ¬ (pixel s.disp px py = true ↔ SpriteCovers s x y n px py))) ∧
      ((∃ px py, SpriteCovers s x y n px py ∧ pixel s.disp px py = true) → readV t 15 = 1) ∧
      ((¬ ∃ px py, SpriteCovers s x y n px py ∧ pixel s.disp px py = true) → readV t 15 = 0) ∧
      t.dirty = true ∧ (∀ k, k ≠ 15 → readV t k = readV s k) ∧
      t = { s with disp := t.disp, dirty := t.dirty, v := t.v }) ∧
    (¬ SpriteReadable s n → ∃ t, exec (.drw x y n) s = .next t ∧
      RecordsFault (.memOutOfBounds .read (if s.i.toNat < 4096 then 4096 else s.i.toNat)) t ∧
      (∀ k, k ≠ 15 → readV t k = readV s k) ∧ (s.dirty = true → t.dirty = true) ∧
      (∀ px py, px < 64 → py < 32 → ¬ InSpriteBox s x y n px py → pixel t.disp px py = pixel s.disp px py) ∧
      t = { s with halted := t.halted, pc := t.pc, lastOpcode := t.lastOpcode, draws := t.draws,
                   disp := t.disp, dirty := t.dirty, v := t.v })

/-- DRW is its own inverse: with the same coordinates, I, sprite bytes and display, the second draw restores the display. It collides
exactly where a set bit lands on a cell that held 0 before the first draw; over cells that all held 0, a clear display for one, that
is exactly where the sprite has a set bit, as R176 says. Derived from 45_display.md R171, R172 and R176; R176's words over every
display are the next statement (log 19). -/
def Obligations.DrawTwiceRestoresTheDisplay : Prop :=
  ∀ (x y : Reg) (n : Nibble) (s t t' u : State), SpriteReadable s n → exec (.drw x y n) s = .next t →
    t'.disp = t.disp → t'.i = s.i → readV t' x = readV s x → readV t' y = readV s y →
    (∀ k, k < n.toNat → byteAt t' (s.i.toNat + k) = byteAt s (s.i.toNat + k)) →
    exec (.drw x y n) t' = .next u →
    u.disp = s.disp ∧
    (readV u 15 = 1 ↔ ∃ px py, SpriteCovers s x y n px py ∧ pixel s.disp px py = false) ∧
    ((∀ px py, SpriteCovers s x y n px py → pixel s.disp px py = false) →
      (readV u 15 = 1 ↔ ∃ r c, r < n.toNat ∧ c < 8 ∧ (byteAt s (s.i.toNat + r)).getLsbD c = true))

/-- 45_display.md R176, which the spec derives from R171 and R172, as it is written: the second of two equal draws sets VF if and only if
the sprite has a set bit. It is EXPECTED TO FAIL: over cells that all held 1 the first draw clears them, and the second then makes
no 1 to 0 transition, so R171 and R172 give VF = 0 (log 19). -/
def Obligations.SecondDrawCollidesWheneverABitIsSet : Prop :=
  ∀ (x y : Reg) (n : Nibble) (s t t' u : State), SpriteReadable s n → exec (.drw x y n) s = .next t →
    t'.disp = t.disp → t'.i = s.i → readV t' x = readV s x → readV t' y = readV s y →
    (∀ k, k < n.toNat → byteAt t' (s.i.toNat + k) = byteAt s (s.i.toNat + k)) →
    exec (.drw x y n) t' = .next u →
    (readV u 15 = 1 ↔ ∃ r c, r < n.toNat ∧ c < 8 ∧ (byteAt s (s.i.toNat + r)).getLsbD c = true)

/-! ### Timers and key wait -/

/-- LD Vx, DT and LD DT, Vx complete and write only their destination (46_timer_key.md R180, R181). -/
def Obligations.DelayTimerTransfers : Prop :=
  ∀ (x : Reg) (s : State),
    (decodeWord (packXNN 0xF x 0x07) = some (.ldFromDt x) ∧
      ∃ t, exec (.ldFromDt x) s = .next t ∧ readV t x = s.dt ∧ OnlyRegs (· = x) s t) ∧
    (decodeWord (packXNN 0xF x 0x15) = some (.ldToDt x) ∧
      ∃ t, exec (.ldToDt x) s = .next t ∧ t.dt = readV s x ∧ t = { s with dt := t.dt })

/-- LD ST, Vx completes and writes ST only: sound_active keeps its value until the next tick, which sets it from the value stored.
Derived from 46_timer_key.md R182 and 60_exceptions.md R213 (the spec's decision D10). -/
def Obligations.SoundTimerWriteIsHeardAtTheTick : Prop :=
  ∀ (x : Reg) (s : State), decodeWord (packXNN 0xF x 0x18) = some (.ldToSt x) ∧
    ∃ t u, exec (.ldToSt x) s = .next t ∧ t.st = readV s x ∧ t = { s with st := t.st } ∧
      applyOp .tickTimers t = .next u ∧ (isSoundActive u = true ↔ readV s x ≠ 0)

/-- LD Vx, K completes: it enters WaitingForKey with target x and writes nothing else (46_timer_key.md R183). -/
def Obligations.KeyWaitIsEntered : Prop :=
  ∀ (x : Reg) (s : State), decodeWord (packXNN 0xF x 0x0A) = some (.ldKey x) ∧
    ∃ t, exec (.ldKey x) s = .next t ∧ t.wait = some x ∧ t = { s with wait := t.wait } ∧
      (s.halted = none → s.paused = false → runState t = .waitingForKey)

/-- A pending wait ends only by a press of a key that was not pressed, or by reset or load_rom. Derived from 60_exceptions.md R216 and
R221 (the spec's decisions D12 and D19; log 9). -/
def Obligations.WaitEndsOnlyByANewPress : Prop :=
  ∀ (s t : State) (x : Reg), s.wait = some x → step s = .next t → t.wait ≠ some x →
    ∃ rest, s.schedule = .reset :: rest ∨ (∃ bytes, s.schedule = .loadRom bytes :: rest) ∨
      ∃ k : Fin 16, s.schedule = .setKey k.val true :: rest ∧ s.keys[k.val] = false ∧ t.wait = none ∧
        (readV t x).toNat = k.val

/-! ### What no other instruction does -/

/-- Only the instructions the spec names write I, the stack, SP, memory, the display, dirty, DT, ST and the wait latch, and no
instruction writes the keys, sound_active, paused, diag_log or the configuration, or clears dirty. Derived from 10_state.md R23,
R25, R26 and R28 to R38 and 45_display.md R173. Nothing is said here of halted, PC and last_opcode. -/
def Obligations.OnlyNamedInstructionsWriteEachField : Prop :=
  ∀ (i : Instr) (s t : State), exec i s = .next t →
    (t.i ≠ s.i → (∃ nnn, i = .ldI nnn) ∨ (∃ x, i = .addI x) ∨ ∃ x, i = .ldFont x) ∧
    (t.stack ≠ s.stack → ∃ nnn, i = .call nnn) ∧
    (t.sp ≠ s.sp → (∃ nnn, i = .call nnn) ∨ i = .ret) ∧
    (t.mem ≠ s.mem → (∃ x, i = .ldBcd x) ∨ ∃ x, i = .storeRegs x) ∧
    (t.disp ≠ s.disp → i = .cls ∨ ∃ x y n, i = .drw x y n) ∧
    (t.dirty ≠ s.dirty → i = .cls ∨ ∃ x y n, i = .drw x y n) ∧ (s.dirty = true → t.dirty = true) ∧
    (t.dt ≠ s.dt → ∃ x, i = .ldToDt x) ∧
    (t.st ≠ s.st → ∃ x, i = .ldToSt x) ∧
    (t.wait ≠ s.wait → ∃ x, i = .ldKey x) ∧
    t.keys = s.keys ∧ t.soundActive = s.soundActive ∧ t.paused = s.paused ∧ t.diagLog = s.diagLog ∧
    t.cfg = s.cfg ∧ t.schedule = s.schedule

/-- A general register changes only as an instruction's destination, in the block Fx65 loads, or as VF written by one of the seven
instructions with that side effect. Derived from 10_state.md R21 and R22, and over a fault from 60_exceptions.md R204 (the spec's
decision D4). -/
def Obligations.RegistersChangeOnlyAsNamed : Prop :=
  ∀ (i : Instr) (s t : State) (k : Reg), exec i s = .next t → readV t k ≠ readV s k →
    destination i = some k ∨ (∃ x, i = .loadRegs x ∧ k ≤ x) ∨ (k = 15 ∧ writesFlag i = true)

/-! ### Faults -/

/-- Each fault kind is raised only by the instructions of the fault table and only on its cause, and the record names the fetch
address. Derived from 60_exceptions.md R200 to R204; that the fetch address is PC - 2 in an execute phase is DEDUCED (log 8). -/
def Obligations.FaultsComeOnlyFromTheirCauses : Prop :=
  ∀ (i : Instr) (s t : State) (r : FaultRecord), s.halted = none → exec i s = .next t → t.halted = some r →
    r.fetchedAt = s.pc - 2 ∧
    match r.fault with
    | .memOutOfBounds .read a => 4096 ≤ a ∧ ((∃ x y n, i = .drw x y n) ∨ ∃ x, i = .loadRegs x)
    | .memOutOfBounds .write a => 4096 ≤ a ∧ ((∃ x, i = .ldBcd x) ∨ ∃ x, i = .storeRegs x)
    | .stackOverflow n => n = 16 ∧ s.sp.val = 16 ∧ ∃ nnn, i = .call nnn
    | .stackUnderflow n => n = 0 ∧ s.sp.val = 0 ∧ i = .ret

/-- A cycle that faults records the address it fetched from and leaves unrelated state alone: I, every cell but those a DRW may draw,
the keys, the timers, the wait latch and the diagnostics log are as before, memory differs at most in the bytes of I .. I + 15, and
a dirty flag of 1 stays. Derived from 60_exceptions.md R204 and 45_display.md R173 (the spec's decision D4; logs 4, 7, 9). -/
def Obligations.FaultLeavesUnrelatedStateAlone : Prop :=
  ∀ (s t : State) (r : FaultRecord), CycleDue s → step s = .next t → t.halted = some r →
    r.fetchedAt = s.pc ∧ t.i = s.i ∧ (s.dirty = true → t.dirty = true) ∧
    (∀ px py, px < 64 → py < 32 → (∀ x y n, decodeWord (wordAtPc s) = some (.drw x y n) → ¬ InSpriteBox s x y n px py) →
      pixel t.disp px py = pixel s.disp px py) ∧ t.keys = s.keys ∧ t.dt = s.dt ∧ t.st = s.st ∧
    t.wait = s.wait ∧ t.soundActive = s.soundActive ∧ t.paused = s.paused ∧ t.diagLog = s.diagLog ∧
    SameBytesBut (fun a => s.i.toNat ≤ a ∧ a < s.i.toNat + 16) s t

/-- Halted-on-error is terminal: cycle() is a no-op and no host operation but reset and load_rom leaves it; those two do. Derived from
60_exceptions.md R205 and 40_cycle.md R100 (the spec's decisions D11 and D19; log 9). -/
def Obligations.HaltedUntilResetOrLoad : Prop :=
  ∀ (s t : State) (r : FaultRecord), s.halted = some r → step s = .next t →
    (((∃ rest, s.schedule = .reset :: rest) ∨ (∃ bytes rest, s.schedule = .loadRom bytes :: rest)) → t.halted = none) ∧
    ((¬ ∃ rest, s.schedule = .reset :: rest) → (¬ ∃ bytes rest, s.schedule = .loadRom bytes :: rest) →
      t.halted = some r) ∧
    ((s.schedule = [] ∨ ∃ rest, s.schedule = .cycle :: rest) → t = { s with schedule := s.schedule.tail })

/-! ### Host operations -/

/-- tick_timers(): each timer that is not 0 goes down by 1, and sound_active is set from ST before the decrement, in every run state.
Derived from 60_exceptions.md R213 and R214 (the spec's decisions D10 and D11). -/
def Obligations.TickCountsDownBothTimers : Prop :=
  ∀ s : State,
    ∃ t, applyOp .tickTimers s = .next t ∧ t.dt.toNat = s.dt.toNat - 1 ∧ t.st.toNat = s.st.toNat - 1 ∧
      (isSoundActive t = true ↔ 0 < s.st.toNat) ∧
      t = { s with dt := t.dt, st := t.st, soundActive := t.soundActive }

/-- set_key(k, p) records the level, and a transition to pressed resolves a pending wait, paused or not, by writing the code to its
target; a code outside 0..15 is refused. Derived from 60_exceptions.md R215 and R216 (the spec's decisions D12 and D33; log 11). -/
def Obligations.SetKeyRecordsAndResolves : Prop :=
  ∀ (s : State) (code : Nat) (p : Bool),
    (16 ≤ code → applyOp (.setKey code p) s = .refused (.keyCodeOutOfRange code)) ∧
    (∀ k : Fin 16, code = k.val → ∃ t, applyOp (.setKey code p) s = .next t ∧
      (∀ j : Fin 16, t.keys[j.val] = if j = k then p else s.keys[j.val]) ∧
      (∀ x, p = true → s.keys[k.val] = false → s.wait = some x →
        t.wait = none ∧ (readV t x).toNat = k.val ∧ (∀ j, j ≠ x → readV t j = readV s j) ∧
        t = { s with keys := t.keys, wait := t.wait, v := t.v }) ∧
      (p = false ∨ s.keys[k.val] = true ∨ s.wait = none → t = { s with keys := t.keys }))

/-- is_dirty() reads dirty, and mark_clean() clears it and changes nothing else, no display cell in particular
(60_exceptions.md R217). -/
def Obligations.MarkCleanClearsDirty : Prop :=
  ∀ s : State, isDirty s = s.dirty ∧ ∃ t, applyOp .markClean s = .next t ∧ t.dirty = false ∧ t = { s with dirty := t.dirty }

/-- set_paused(p) sets paused and cancels neither a wait nor a fault: once paused is cleared, the run state is what it would have
been. Derived from 60_exceptions.md R218 and 10_state.md R37 (the spec's decisions D13 and D14). -/
def Obligations.PausingCancelsNothing : Prop :=
  ∀ s : State, ∃ t u, applyOp (.setPaused true) s = .next t ∧ applyOp (.setPaused false) t = .next u ∧
    t = { s with paused := true } ∧ u = { s with paused := false } ∧
    (s.halted = none → runState t = .paused) ∧ (s.paused = false → runState u = runState s)

/-- reset() gives every field its reset value, whatever the state, for every FONT_BASE and FONT_DATA; paused and diag_log, and the
model's own fields, are not changed. Derived from 70_reset_and_hazards.md R250 and 10_state.md R42 (the values of the stack, dirty,
the keys, sound_active, last_opcode and what reset leaves are the spec's decisions D10, D13, D15 to D18; logs 1, 10, 16). -/
def Obligations.ResetGivesEveryFieldItsValue : Prop :=
  ∀ s : State,
    ∃ t, applyOp .reset s = .next t ∧
      (∀ k, readV t k = 0) ∧ t.i = 0 ∧ t.pc = 0x200 ∧ t.sp = 0 ∧
      (∀ (k : Nat) (_ : k < 16), t.stack[k] = 0) ∧
      (∀ a, a < 4096 → s.cfg.fontBase.val ≤ a → ∀ h : a - s.cfg.fontBase.val < 80,
        byteAt t a = s.cfg.fontData[a - s.cfg.fontBase.val]) ∧
      (∀ a, a < 4096 → (a < s.cfg.fontBase.val ∨ s.cfg.fontBase.val + 80 ≤ a) → byteAt t a = 0) ∧
      (∀ px py, px < 64 → py < 32 → pixel t.disp px py = false) ∧ t.dirty = true ∧
      (∀ (k : Nat) (_ : k < 16), t.keys[k] = false) ∧ t.wait = none ∧
      t.dt = 0 ∧ t.st = 0 ∧ t.soundActive = false ∧ t.halted = none ∧ t.lastOpcode = none ∧
      t.paused = s.paused ∧ t.diagLog = s.diagLog ∧ t.cfg = s.cfg ∧ t.draws = s.draws ∧ t.schedule = s.schedule

/-- load_rom(b) is a reset that then copies at most 3584 bytes to 0x200 and up, and logs a truncation. Derived from
70_reset_and_hazards.md R252 and R253 (the spec's decisions D19 and D38). -/
def Obligations.LoadRomCopiesAfterAReset : Prop :=
  ∀ (s : State) (b : List Byte),
    ∃ t r, applyOp (.loadRom b) s = .next t ∧ applyOp .reset s = .next r ∧
      (∀ (k : Nat) (h : k < b.length), k < 3584 → byteAt t (0x200 + k) = b[k]) ∧
      (∀ a, (a < 0x200 ∨ 0x200 + min b.length 3584 ≤ a) → byteAt t a = byteAt r a) ∧
      (b.length ≤ 3584 → t.diagLog = r.diagLog) ∧
      (3584 < b.length → t.diagLog = r.diagLog ++ [.romTruncated b.length]) ∧
      t = { r with mem := t.mem, diagLog := t.diagLog }

/-- At creation the block is Running at the entry point 0x200 with nothing logged, and the first byte of a program is unwritten.
Derived from 70_reset_and_hazards.md R254 to R256 (the spec's decision D30; logs 9, 16). -/
def Obligations.CreationStateIsRunning : Prop :=
  runState State.reset = .running ∧ State.reset.pc = 0x200 ∧ State.reset.diagLog = [] ∧
  State.reset.paused = false ∧ wordAtPc State.reset = 0x0000

/-- The interpreter state follows the priority Halted-on-error, Paused, WaitingForKey, Running. Derived from 10_state.md R37 (the spec's
decision D14). -/
def Obligations.RunStateByPriority : Prop :=
  ∀ s : State,
    (runState s = .haltedOnError ↔ s.halted ≠ none) ∧
    (runState s = .paused ↔ s.halted = none ∧ s.paused = true) ∧
    (runState s = .waitingForKey ↔ s.halted = none ∧ s.paused = false ∧ s.wait ≠ none) ∧
    (runState s = .running ↔ s.halted = none ∧ s.paused = false ∧ s.wait = none)

/-- pixel_at(px, py) is the cell py * 64 + px, bit px of display row py. Derived from 60_exceptions.md R219 and 10_state.md R28; that a
row is one 64-bit word is the model's (log 17). -/
def Obligations.PixelAtReadsTheRowMajorCell : Prop :=
  ∀ (s : State) (px : Fin 64) (py : Fin 32),
    pixelAt s px py = dispCell s (py.val * 64 + px.val) ∧ pixelAt s px py = (s.disp[py.val]).getLsbD px.val

/-! ### The invariant -/

/-- The invariant holds at creation. Derived from 10_state.md R41, which the spec derives in turn, and from memory's canonical form, the
model's (log 12). -/
def Obligations.InvariantHoldsAtReset : Prop := Inv State.reset

/-- Every step from a state that meets the invariant gives one that meets it. Derived from 10_state.md R41, which the spec derives in
turn; memory's canonical form and the bounds of the free values are the model's (logs 5, 12). -/
def Obligations.EveryStepKeepsTheInvariant : Prop :=
  ∀ s t : State, Inv s → step s = .next t → Inv t
end

