-- ==== Sys2Proof/Laws/State.lean ====
section
/-! SUPPORT. One lemma per field per named update of the state, each true by rfl. -/

namespace Sys2Proof.Machine

/-! ### writeV -/

section
variable (x : Reg) (b : Byte) (s : State)

@[simp] theorem writeV_v : (writeV x b s).v = s.v.set x.val b := rfl
@[simp] theorem writeV_i : (writeV x b s).i = s.i := rfl
@[simp] theorem writeV_pc : (writeV x b s).pc = s.pc := rfl
@[simp] theorem writeV_stack : (writeV x b s).stack = s.stack := rfl
@[simp] theorem writeV_sp : (writeV x b s).sp = s.sp := rfl
@[simp] theorem writeV_mem : (writeV x b s).mem = s.mem := rfl
@[simp] theorem writeV_disp : (writeV x b s).disp = s.disp := rfl
@[simp] theorem writeV_dirty : (writeV x b s).dirty = s.dirty := rfl
@[simp] theorem writeV_keys : (writeV x b s).keys = s.keys := rfl
@[simp] theorem writeV_wait : (writeV x b s).wait = s.wait := rfl
@[simp] theorem writeV_dt : (writeV x b s).dt = s.dt := rfl
@[simp] theorem writeV_st : (writeV x b s).st = s.st := rfl
@[simp] theorem writeV_soundActive : (writeV x b s).soundActive = s.soundActive := rfl
@[simp] theorem writeV_paused : (writeV x b s).paused = s.paused := rfl
@[simp] theorem writeV_halted : (writeV x b s).halted = s.halted := rfl
@[simp] theorem writeV_lastOpcode : (writeV x b s).lastOpcode = s.lastOpcode := rfl
@[simp] theorem writeV_diagLog : (writeV x b s).diagLog = s.diagLog := rfl
@[simp] theorem writeV_cfg : (writeV x b s).cfg = s.cfg := rfl
@[simp] theorem writeV_draws : (writeV x b s).draws = s.draws := rfl
@[simp] theorem writeV_schedule : (writeV x b s).schedule = s.schedule := rfl

end

/-! ### writeI -/

section
variable (w : Word) (s : State)

@[simp] theorem writeI_v : (writeI w s).v = s.v := rfl
@[simp] theorem writeI_i : (writeI w s).i = w := rfl
@[simp] theorem writeI_pc : (writeI w s).pc = s.pc := rfl
@[simp] theorem writeI_stack : (writeI w s).stack = s.stack := rfl
@[simp] theorem writeI_sp : (writeI w s).sp = s.sp := rfl
@[simp] theorem writeI_mem : (writeI w s).mem = s.mem := rfl
@[simp] theorem writeI_disp : (writeI w s).disp = s.disp := rfl
@[simp] theorem writeI_dirty : (writeI w s).dirty = s.dirty := rfl
@[simp] theorem writeI_keys : (writeI w s).keys = s.keys := rfl
@[simp] theorem writeI_wait : (writeI w s).wait = s.wait := rfl
@[simp] theorem writeI_dt : (writeI w s).dt = s.dt := rfl
@[simp] theorem writeI_st : (writeI w s).st = s.st := rfl
@[simp] theorem writeI_soundActive : (writeI w s).soundActive = s.soundActive := rfl
@[simp] theorem writeI_paused : (writeI w s).paused = s.paused := rfl
@[simp] theorem writeI_halted : (writeI w s).halted = s.halted := rfl
@[simp] theorem writeI_lastOpcode : (writeI w s).lastOpcode = s.lastOpcode := rfl
@[simp] theorem writeI_diagLog : (writeI w s).diagLog = s.diagLog := rfl
@[simp] theorem writeI_cfg : (writeI w s).cfg = s.cfg := rfl
@[simp] theorem writeI_draws : (writeI w s).draws = s.draws := rfl
@[simp] theorem writeI_schedule : (writeI w s).schedule = s.schedule := rfl

end

/-! ### writePc -/

section
variable (w : Word) (s : State)

@[simp] theorem writePc_v : (writePc w s).v = s.v := rfl
@[simp] theorem writePc_i : (writePc w s).i = s.i := rfl
@[simp] theorem writePc_pc : (writePc w s).pc = w := rfl
@[simp] theorem writePc_stack : (writePc w s).stack = s.stack := rfl
@[simp] theorem writePc_sp : (writePc w s).sp = s.sp := rfl
@[simp] theorem writePc_mem : (writePc w s).mem = s.mem := rfl
@[simp] theorem writePc_disp : (writePc w s).disp = s.disp := rfl
@[simp] theorem writePc_dirty : (writePc w s).dirty = s.dirty := rfl
@[simp] theorem writePc_keys : (writePc w s).keys = s.keys := rfl
@[simp] theorem writePc_wait : (writePc w s).wait = s.wait := rfl
@[simp] theorem writePc_dt : (writePc w s).dt = s.dt := rfl
@[simp] theorem writePc_st : (writePc w s).st = s.st := rfl
@[simp] theorem writePc_soundActive : (writePc w s).soundActive = s.soundActive := rfl
@[simp] theorem writePc_paused : (writePc w s).paused = s.paused := rfl
@[simp] theorem writePc_halted : (writePc w s).halted = s.halted := rfl
@[simp] theorem writePc_lastOpcode : (writePc w s).lastOpcode = s.lastOpcode := rfl
@[simp] theorem writePc_diagLog : (writePc w s).diagLog = s.diagLog := rfl
@[simp] theorem writePc_cfg : (writePc w s).cfg = s.cfg := rfl
@[simp] theorem writePc_draws : (writePc w s).draws = s.draws := rfl
@[simp] theorem writePc_schedule : (writePc w s).schedule = s.schedule := rfl

end

/-! ### writeDt -/

section
variable (b : Byte) (s : State)

@[simp] theorem writeDt_v : (writeDt b s).v = s.v := rfl
@[simp] theorem writeDt_i : (writeDt b s).i = s.i := rfl
@[simp] theorem writeDt_pc : (writeDt b s).pc = s.pc := rfl
@[simp] theorem writeDt_stack : (writeDt b s).stack = s.stack := rfl
@[simp] theorem writeDt_sp : (writeDt b s).sp = s.sp := rfl
@[simp] theorem writeDt_mem : (writeDt b s).mem = s.mem := rfl
@[simp] theorem writeDt_disp : (writeDt b s).disp = s.disp := rfl
@[simp] theorem writeDt_dirty : (writeDt b s).dirty = s.dirty := rfl
@[simp] theorem writeDt_keys : (writeDt b s).keys = s.keys := rfl
@[simp] theorem writeDt_wait : (writeDt b s).wait = s.wait := rfl
@[simp] theorem writeDt_dt : (writeDt b s).dt = b := rfl
@[simp] theorem writeDt_st : (writeDt b s).st = s.st := rfl
@[simp] theorem writeDt_soundActive : (writeDt b s).soundActive = s.soundActive := rfl
@[simp] theorem writeDt_paused : (writeDt b s).paused = s.paused := rfl
@[simp] theorem writeDt_halted : (writeDt b s).halted = s.halted := rfl
@[simp] theorem writeDt_lastOpcode : (writeDt b s).lastOpcode = s.lastOpcode := rfl
@[simp] theorem writeDt_diagLog : (writeDt b s).diagLog = s.diagLog := rfl
@[simp] theorem writeDt_cfg : (writeDt b s).cfg = s.cfg := rfl
@[simp] theorem writeDt_draws : (writeDt b s).draws = s.draws := rfl
@[simp] theorem writeDt_schedule : (writeDt b s).schedule = s.schedule := rfl

end

/-! ### writeSt -/

section
variable (b : Byte) (s : State)

@[simp] theorem writeSt_v : (writeSt b s).v = s.v := rfl
@[simp] theorem writeSt_i : (writeSt b s).i = s.i := rfl
@[simp] theorem writeSt_pc : (writeSt b s).pc = s.pc := rfl
@[simp] theorem writeSt_stack : (writeSt b s).stack = s.stack := rfl
@[simp] theorem writeSt_sp : (writeSt b s).sp = s.sp := rfl
@[simp] theorem writeSt_mem : (writeSt b s).mem = s.mem := rfl
@[simp] theorem writeSt_disp : (writeSt b s).disp = s.disp := rfl
@[simp] theorem writeSt_dirty : (writeSt b s).dirty = s.dirty := rfl
@[simp] theorem writeSt_keys : (writeSt b s).keys = s.keys := rfl
@[simp] theorem writeSt_wait : (writeSt b s).wait = s.wait := rfl
@[simp] theorem writeSt_dt : (writeSt b s).dt = s.dt := rfl
@[simp] theorem writeSt_st : (writeSt b s).st = b := rfl
@[simp] theorem writeSt_soundActive : (writeSt b s).soundActive = s.soundActive := rfl
@[simp] theorem writeSt_paused : (writeSt b s).paused = s.paused := rfl
@[simp] theorem writeSt_halted : (writeSt b s).halted = s.halted := rfl
@[simp] theorem writeSt_lastOpcode : (writeSt b s).lastOpcode = s.lastOpcode := rfl
@[simp] theorem writeSt_diagLog : (writeSt b s).diagLog = s.diagLog := rfl
@[simp] theorem writeSt_cfg : (writeSt b s).cfg = s.cfg := rfl
@[simp] theorem writeSt_draws : (writeSt b s).draws = s.draws := rfl
@[simp] theorem writeSt_schedule : (writeSt b s).schedule = s.schedule := rfl

end

/-! ### writeWait -/

section
variable (w : Option Reg) (s : State)

@[simp] theorem writeWait_v : (writeWait w s).v = s.v := rfl
@[simp] theorem writeWait_i : (writeWait w s).i = s.i := rfl
@[simp] theorem writeWait_pc : (writeWait w s).pc = s.pc := rfl
@[simp] theorem writeWait_stack : (writeWait w s).stack = s.stack := rfl
@[simp] theorem writeWait_sp : (writeWait w s).sp = s.sp := rfl
@[simp] theorem writeWait_mem : (writeWait w s).mem = s.mem := rfl
@[simp] theorem writeWait_disp : (writeWait w s).disp = s.disp := rfl
@[simp] theorem writeWait_dirty : (writeWait w s).dirty = s.dirty := rfl
@[simp] theorem writeWait_keys : (writeWait w s).keys = s.keys := rfl
@[simp] theorem writeWait_wait : (writeWait w s).wait = w := rfl
@[simp] theorem writeWait_dt : (writeWait w s).dt = s.dt := rfl
@[simp] theorem writeWait_st : (writeWait w s).st = s.st := rfl
@[simp] theorem writeWait_soundActive : (writeWait w s).soundActive = s.soundActive := rfl
@[simp] theorem writeWait_paused : (writeWait w s).paused = s.paused := rfl
@[simp] theorem writeWait_halted : (writeWait w s).halted = s.halted := rfl
@[simp] theorem writeWait_lastOpcode : (writeWait w s).lastOpcode = s.lastOpcode := rfl
@[simp] theorem writeWait_diagLog : (writeWait w s).diagLog = s.diagLog := rfl
@[simp] theorem writeWait_cfg : (writeWait w s).cfg = s.cfg := rfl
@[simp] theorem writeWait_draws : (writeWait w s).draws = s.draws := rfl
@[simp] theorem writeWait_schedule : (writeWait w s).schedule = s.schedule := rfl

end

/-! ### writeDisp -/

section
variable (d : Vector (BitVec 64) 32) (s : State)

@[simp] theorem writeDisp_v : (writeDisp d s).v = s.v := rfl
@[simp] theorem writeDisp_i : (writeDisp d s).i = s.i := rfl
@[simp] theorem writeDisp_pc : (writeDisp d s).pc = s.pc := rfl
@[simp] theorem writeDisp_stack : (writeDisp d s).stack = s.stack := rfl
@[simp] theorem writeDisp_sp : (writeDisp d s).sp = s.sp := rfl
@[simp] theorem writeDisp_mem : (writeDisp d s).mem = s.mem := rfl
@[simp] theorem writeDisp_disp : (writeDisp d s).disp = d := rfl
@[simp] theorem writeDisp_dirty : (writeDisp d s).dirty = true := rfl
@[simp] theorem writeDisp_keys : (writeDisp d s).keys = s.keys := rfl
@[simp] theorem writeDisp_wait : (writeDisp d s).wait = s.wait := rfl
@[simp] theorem writeDisp_dt : (writeDisp d s).dt = s.dt := rfl
@[simp] theorem writeDisp_st : (writeDisp d s).st = s.st := rfl
@[simp] theorem writeDisp_soundActive : (writeDisp d s).soundActive = s.soundActive := rfl
@[simp] theorem writeDisp_paused : (writeDisp d s).paused = s.paused := rfl
@[simp] theorem writeDisp_halted : (writeDisp d s).halted = s.halted := rfl
@[simp] theorem writeDisp_lastOpcode : (writeDisp d s).lastOpcode = s.lastOpcode := rfl
@[simp] theorem writeDisp_diagLog : (writeDisp d s).diagLog = s.diagLog := rfl
@[simp] theorem writeDisp_cfg : (writeDisp d s).cfg = s.cfg := rfl
@[simp] theorem writeDisp_draws : (writeDisp d s).draws = s.draws := rfl
@[simp] theorem writeDisp_schedule : (writeDisp d s).schedule = s.schedule := rfl

end

/-! ### setByte -/

section
variable (a : Nat) (b : Byte) (s : State)

@[simp] theorem setByte_v : (setByte a b s).v = s.v := rfl
@[simp] theorem setByte_i : (setByte a b s).i = s.i := rfl
@[simp] theorem setByte_pc : (setByte a b s).pc = s.pc := rfl
@[simp] theorem setByte_stack : (setByte a b s).stack = s.stack := rfl
@[simp] theorem setByte_sp : (setByte a b s).sp = s.sp := rfl
@[simp] theorem setByte_mem : (setByte a b s).mem = Memory.set s.cfg s.mem a b := rfl
@[simp] theorem setByte_disp : (setByte a b s).disp = s.disp := rfl
@[simp] theorem setByte_dirty : (setByte a b s).dirty = s.dirty := rfl
@[simp] theorem setByte_keys : (setByte a b s).keys = s.keys := rfl
@[simp] theorem setByte_wait : (setByte a b s).wait = s.wait := rfl
@[simp] theorem setByte_dt : (setByte a b s).dt = s.dt := rfl
@[simp] theorem setByte_st : (setByte a b s).st = s.st := rfl
@[simp] theorem setByte_soundActive : (setByte a b s).soundActive = s.soundActive := rfl
@[simp] theorem setByte_paused : (setByte a b s).paused = s.paused := rfl
@[simp] theorem setByte_halted : (setByte a b s).halted = s.halted := rfl
@[simp] theorem setByte_lastOpcode : (setByte a b s).lastOpcode = s.lastOpcode := rfl
@[simp] theorem setByte_diagLog : (setByte a b s).diagLog = s.diagLog := rfl
@[simp] theorem setByte_cfg : (setByte a b s).cfg = s.cfg := rfl
@[simp] theorem setByte_draws : (setByte a b s).draws = s.draws := rfl
@[simp] theorem setByte_schedule : (setByte a b s).schedule = s.schedule := rfl

end

/-! ### logEvent -/

section
variable (e : Event) (s : State)

@[simp] theorem logEvent_v : (logEvent e s).v = s.v := rfl
@[simp] theorem logEvent_i : (logEvent e s).i = s.i := rfl
@[simp] theorem logEvent_pc : (logEvent e s).pc = s.pc := rfl
@[simp] theorem logEvent_stack : (logEvent e s).stack = s.stack := rfl
@[simp] theorem logEvent_sp : (logEvent e s).sp = s.sp := rfl
@[simp] theorem logEvent_mem : (logEvent e s).mem = s.mem := rfl
@[simp] theorem logEvent_disp : (logEvent e s).disp = s.disp := rfl
@[simp] theorem logEvent_dirty : (logEvent e s).dirty = s.dirty := rfl
@[simp] theorem logEvent_keys : (logEvent e s).keys = s.keys := rfl
@[simp] theorem logEvent_wait : (logEvent e s).wait = s.wait := rfl
@[simp] theorem logEvent_dt : (logEvent e s).dt = s.dt := rfl
@[simp] theorem logEvent_st : (logEvent e s).st = s.st := rfl
@[simp] theorem logEvent_soundActive : (logEvent e s).soundActive = s.soundActive := rfl
@[simp] theorem logEvent_paused : (logEvent e s).paused = s.paused := rfl
@[simp] theorem logEvent_halted : (logEvent e s).halted = s.halted := rfl
@[simp] theorem logEvent_lastOpcode : (logEvent e s).lastOpcode = s.lastOpcode := rfl
@[simp] theorem logEvent_diagLog : (logEvent e s).diagLog = s.diagLog ++ [e] := rfl
@[simp] theorem logEvent_cfg : (logEvent e s).cfg = s.cfg := rfl
@[simp] theorem logEvent_draws : (logEvent e s).draws = s.draws := rfl
@[simp] theorem logEvent_schedule : (logEvent e s).schedule = s.schedule := rfl

end

/-! ### recordOpcode -/

section
variable (w : Word) (s : State)

@[simp] theorem recordOpcode_v : (recordOpcode w s).v = s.v := rfl
@[simp] theorem recordOpcode_i : (recordOpcode w s).i = s.i := rfl
@[simp] theorem recordOpcode_pc : (recordOpcode w s).pc = s.pc := rfl
@[simp] theorem recordOpcode_stack : (recordOpcode w s).stack = s.stack := rfl
@[simp] theorem recordOpcode_sp : (recordOpcode w s).sp = s.sp := rfl
@[simp] theorem recordOpcode_mem : (recordOpcode w s).mem = s.mem := rfl
@[simp] theorem recordOpcode_disp : (recordOpcode w s).disp = s.disp := rfl
@[simp] theorem recordOpcode_dirty : (recordOpcode w s).dirty = s.dirty := rfl
@[simp] theorem recordOpcode_keys : (recordOpcode w s).keys = s.keys := rfl
@[simp] theorem recordOpcode_wait : (recordOpcode w s).wait = s.wait := rfl
@[simp] theorem recordOpcode_dt : (recordOpcode w s).dt = s.dt := rfl
@[simp] theorem recordOpcode_st : (recordOpcode w s).st = s.st := rfl
@[simp] theorem recordOpcode_soundActive : (recordOpcode w s).soundActive = s.soundActive := rfl
@[simp] theorem recordOpcode_paused : (recordOpcode w s).paused = s.paused := rfl
@[simp] theorem recordOpcode_halted : (recordOpcode w s).halted = s.halted := rfl
@[simp] theorem recordOpcode_lastOpcode : (recordOpcode w s).lastOpcode = some w := rfl
@[simp] theorem recordOpcode_diagLog : (recordOpcode w s).diagLog = s.diagLog := rfl
@[simp] theorem recordOpcode_cfg : (recordOpcode w s).cfg = s.cfg := rfl
@[simp] theorem recordOpcode_draws : (recordOpcode w s).draws = s.draws := rfl
@[simp] theorem recordOpcode_schedule : (recordOpcode w s).schedule = s.schedule := rfl

end

/-! ### countDraw -/

section
variable  (s : State)

@[simp] theorem countDraw_v : (countDraw s).v = s.v := rfl
@[simp] theorem countDraw_i : (countDraw s).i = s.i := rfl
@[simp] theorem countDraw_pc : (countDraw s).pc = s.pc := rfl
@[simp] theorem countDraw_stack : (countDraw s).stack = s.stack := rfl
@[simp] theorem countDraw_sp : (countDraw s).sp = s.sp := rfl
@[simp] theorem countDraw_mem : (countDraw s).mem = s.mem := rfl
@[simp] theorem countDraw_disp : (countDraw s).disp = s.disp := rfl
@[simp] theorem countDraw_dirty : (countDraw s).dirty = s.dirty := rfl
@[simp] theorem countDraw_keys : (countDraw s).keys = s.keys := rfl
@[simp] theorem countDraw_wait : (countDraw s).wait = s.wait := rfl
@[simp] theorem countDraw_dt : (countDraw s).dt = s.dt := rfl
@[simp] theorem countDraw_st : (countDraw s).st = s.st := rfl
@[simp] theorem countDraw_soundActive : (countDraw s).soundActive = s.soundActive := rfl
@[simp] theorem countDraw_paused : (countDraw s).paused = s.paused := rfl
@[simp] theorem countDraw_halted : (countDraw s).halted = s.halted := rfl
@[simp] theorem countDraw_lastOpcode : (countDraw s).lastOpcode = s.lastOpcode := rfl
@[simp] theorem countDraw_diagLog : (countDraw s).diagLog = s.diagLog := rfl
@[simp] theorem countDraw_cfg : (countDraw s).cfg = s.cfg := rfl
@[simp] theorem countDraw_draws : (countDraw s).draws = s.draws + 1 := rfl
@[simp] theorem countDraw_schedule : (countDraw s).schedule = s.schedule := rfl

end

/-! ### raise -/

section
variable (f : Fault) (a : Word) (s : State)

@[simp] theorem raise_v : (raise f a s).v = s.v := rfl
@[simp] theorem raise_i : (raise f a s).i = s.i := rfl
@[simp] theorem raise_pc : (raise f a s).pc = BitVec.ofNat 16 (Config.freePc s.draws).val := rfl
@[simp] theorem raise_stack : (raise f a s).stack = s.stack := rfl
@[simp] theorem raise_sp : (raise f a s).sp = s.sp := rfl
@[simp] theorem raise_mem : (raise f a s).mem = s.mem := rfl
@[simp] theorem raise_disp : (raise f a s).disp = s.disp := rfl
@[simp] theorem raise_dirty : (raise f a s).dirty = s.dirty := rfl
@[simp] theorem raise_keys : (raise f a s).keys = s.keys := rfl
@[simp] theorem raise_wait : (raise f a s).wait = s.wait := rfl
@[simp] theorem raise_dt : (raise f a s).dt = s.dt := rfl
@[simp] theorem raise_st : (raise f a s).st = s.st := rfl
@[simp] theorem raise_soundActive : (raise f a s).soundActive = s.soundActive := rfl
@[simp] theorem raise_paused : (raise f a s).paused = s.paused := rfl
@[simp] theorem raise_halted : (raise f a s).halted = some { fault := f, fetchedAt := a } := rfl
@[simp] theorem raise_lastOpcode : (raise f a s).lastOpcode = Config.freeLastOpcode s.draws := rfl
@[simp] theorem raise_diagLog : (raise f a s).diagLog = s.diagLog := rfl
@[simp] theorem raise_cfg : (raise f a s).cfg = s.cfg := rfl
@[simp] theorem raise_draws : (raise f a s).draws = s.draws + 1 := rfl
@[simp] theorem raise_schedule : (raise f a s).schedule = s.schedule := rfl

end

end Sys2Proof.Machine
end

