-- ==== Sys2Proof/Laws/Memory.lean ====
section
/-! SUPPORT. Memory: read after write, the canonical form, block reads and block writes. -/

namespace Sys2Proof.Machine

/-! ### The list of entries -/

theorem Memory.find_drop_self (m : Memory) (a : Nat) : Memory.find (Memory.drop m a) a = none := by
  induction m with
  | nil => rfl
  | cons e m ih =>
    rw [Memory.drop, List.filter_cons]
    split
    · next h => simpa [Memory.find, (by simpa using h : e.1 ≠ a), Memory.drop] using ih
    · exact ih

theorem Memory.find_drop_other (m : Memory) {a c : Nat} (h : c ≠ a) :
    Memory.find (Memory.drop m a) c = Memory.find m c := by
  induction m with
  | nil => rfl
  | cons e m ih =>
    rw [Memory.drop, List.filter_cons]
    split
    · simp only [Memory.find]; split
      · rfl
      · exact ih
    · next he =>
      have hk : e.1 = a := by simpa using he
      simp only [Memory.find, if_neg (fun hc : e.1 = c => h (hc.symm.trans hk))]
      exact ih

theorem Memory.find_put_self (m : Memory) (a : Nat) (b : Byte) (h : Memory.find m a = none) :
    Memory.find (Memory.put m a b) a = some b := by
  induction m with
  | nil => simp [Memory.put, Memory.find]
  | cons e m ih =>
    simp only [Memory.find] at h
    split at h
    · cases h
    · next he =>
      simp only [Memory.put]; split
      · simp [Memory.find]
      · simp [Memory.find, he, ih h]

theorem Memory.find_put_other (m : Memory) {a c : Nat} (b : Byte) (h : c ≠ a) :
    Memory.find (Memory.put m a b) c = Memory.find m c := by
  induction m with
  | nil => simp [Memory.put, Memory.find, Ne.symm h]
  | cons e m ih =>
    simp only [Memory.put]; split
    · simp [Memory.find, Ne.symm h]
    · simp only [Memory.find, ih]

@[simp] theorem Memory.get_set_self (c : Config) (m : Memory) (a : Nat) (b : Byte) :
    Memory.get c (Memory.set c m a b) a = b := by
  unfold Memory.get Memory.set
  split
  · next h => rw [Memory.find_drop_self]; exact h.symm
  · rw [Memory.find_put_self _ _ _ (Memory.find_drop_self m a)]; rfl

theorem Memory.get_set_other (c : Config) (m : Memory) {a a' : Nat} (b : Byte) (h : a' ≠ a) :
    Memory.get c (Memory.set c m a b) a' = Memory.get c m a' := by
  unfold Memory.get Memory.set
  split
  · rw [Memory.find_drop_other m h]
  · rw [Memory.find_put_other _ _ h, Memory.find_drop_other m h]

/-- Read after write, in one equation. -/
theorem byteAt_setByte (a c : Nat) (b : Byte) (s : State) :
    byteAt (setByte a b s) c = if c = a then b else byteAt s c := by
  split
  · next h => subst h; exact Memory.get_set_self ..
  · next h => exact Memory.get_set_other _ _ _ h

/-! ### The canonical form -/

theorem Memory.wf_iff (c : Config) (m : Memory) : Memory.wf c m = true ↔
    m.Pairwise (fun p q => p.1 < q.1) ∧ ∀ e ∈ m, e.1 < 4096 ∧ e.2 ≠ Memory.unlisted c e.1 := by
  simp [Memory.wf]

theorem Memory.mem_put {m : Memory} {a : Nat} {b : Byte} {e : Host.Cell} (h : e ∈ Memory.put m a b) :
    e = (a, b) ∨ e ∈ m := by
  induction m with
  | nil => simpa [Memory.put] using h
  | cons d m ih =>
    simp only [Memory.put] at h
    split at h
    · simpa using h
    · rcases List.mem_cons.1 h with h | h
      · exact .inr (h ▸ List.mem_cons_self)
      · exact (ih h).imp_right (List.mem_cons_of_mem _)

theorem Memory.put_pairwise {m : Memory} {a : Nat} {b : Byte} (hm : m.Pairwise fun p q => p.1 < q.1)
    (ha : ∀ e ∈ m, e.1 ≠ a) : (Memory.put m a b).Pairwise fun p q => p.1 < q.1 := by
  induction m with
  | nil => simp [Memory.put]
  | cons d m ih =>
    have hd := List.pairwise_cons.1 hm
    simp only [Memory.put]; split
    · next hlt =>
      refine List.pairwise_cons.2 ⟨fun e he => ?_, hm⟩
      rcases List.mem_cons.1 he with rfl | he
      · exact hlt
      · exact lt_trans hlt (hd.1 e he)
    · next hge =>
      refine List.pairwise_cons.2 ⟨fun e he => ?_, ih hd.2 fun e he => ha e (List.mem_cons_of_mem _ he)⟩
      rcases Memory.mem_put he with rfl | he
      · have := ha d List.mem_cons_self
        simp only at hge ⊢; omega
      · exact hd.1 e he

theorem Memory.set_wf {c : Config} {m : Memory} {a : Nat} {b : Byte} (hm : Memory.wf c m = true)
    (ha : a < 4096) : Memory.wf c (Memory.set c m a b) = true := by
  rw [Memory.wf_iff] at hm ⊢
  have hdrop : (Memory.drop m a).Pairwise fun p q => p.1 < q.1 := hm.1.filter _
  have hmem : ∀ e ∈ Memory.drop m a, e ∈ m ∧ e.1 ≠ a := fun e he => by
    simpa [Memory.drop] using he
  unfold Memory.set
  split
  · exact ⟨hdrop, fun e he => hm.2 e (hmem e he).1⟩
  · next hb =>
    refine ⟨Memory.put_pairwise hdrop fun e he => (hmem e he).2, fun e he => ?_⟩
    rcases Memory.mem_put he with rfl | he
    · exact ⟨ha, hb⟩
    · exact hm.2 e (hmem e he).1

/-- The reset contents list nothing, which is canonical for every configuration. -/
theorem Memory.nil_wf (c : Config) : Memory.wf c [] = true := rfl

/-- Outside the font table an unlisted address reads as zero. -/
theorem Memory.unlisted_zero (c : Config) {a : Nat} (h : 0x200 ≤ a) : Memory.unlisted c a = 0 := by
  have := c.fontBase.isLt
  unfold Memory.unlisted
  split
  · rw [List.getD_eq_default]; simp; omega
  · rfl

theorem romCells_addr (c : Config) (a : Nat) (bs : List Byte) :
    ∀ e ∈ romCells c a bs, a ≤ e.1 ∧ e.1 < a + bs.length ∧ e.2 ≠ Memory.unlisted c e.1 := by
  induction bs generalizing a with
  | nil => simp [romCells]
  | cons b bs ih =>
    intro e he
    simp only [romCells] at he
    split at he
    · have := ih (a + 1) e he
      simp only [List.length_cons]; exact ⟨by omega, by omega, this.2.2⟩
    · next hb =>
      rcases List.mem_cons.1 he with rfl | he
      · exact ⟨le_rfl, by simp, hb⟩
      · have := ih (a + 1) e he
        simp only [List.length_cons]; exact ⟨by omega, by omega, this.2.2⟩

theorem romCells_wf (c : Config) (a : Nat) (bs : List Byte) (h : a + bs.length ≤ 4096) :
    Memory.wf c (romCells c a bs) = true := by
  rw [Memory.wf_iff]
  refine ⟨?_, fun e he => ⟨?_, (romCells_addr c a bs e he).2.2⟩⟩
  · clear h
    induction bs generalizing a with
    | nil => simp [romCells]
    | cons b bs ih =>
      simp only [romCells]; split
      · exact ih (a + 1)
      · exact List.pairwise_cons.2 ⟨fun e he => by have := romCells_addr c (a + 1) bs e he; simp only; omega, ih (a + 1)⟩
  · have := romCells_addr c a bs e he; omega

/-- What a loaded ROM reads as. -/
theorem get_romCells (c : Config) (a k : Nat) (bs : List Byte) :
    Memory.get c (romCells c a bs) k =
      if a ≤ k ∧ k < a + bs.length then bs.getD (k - a) 0 else Memory.unlisted c k := by
  induction bs generalizing a with
  | nil => simp [romCells, Memory.get, Memory.find]
  | cons b bs ih =>
    simp only [romCells]
    by_cases hk : k = a
    · subst hk
      have hin : k ≤ k ∧ k < k + (b :: bs).length := ⟨le_rfl, by simp⟩
      rw [if_pos hin]
      split
      · next hb => rw [ih, if_neg (by omega)]; simpa using hb.symm
      · simp [Memory.get, Memory.find]
    · have hstep : (if a ≤ k ∧ k < a + (b :: bs).length then (b :: bs).getD (k - a) 0 else Memory.unlisted c k) =
          if a + 1 ≤ k ∧ k < a + 1 + bs.length then bs.getD (k - (a + 1)) 0 else Memory.unlisted c k := by
        by_cases h : a + 1 ≤ k ∧ k < a + 1 + bs.length
        · obtain ⟨j, rfl⟩ : ∃ j, k = a + 1 + j := ⟨k - (a + 1), by omega⟩
          have : a + 1 + j - a = j + 1 := by omega
          rw [if_pos h, if_pos (by simp only [List.length_cons]; omega), this]
          simp
        · rw [if_neg h, if_neg (by simp only [List.length_cons]; omega)]
      rw [hstep]
      split
      · exact ih (a + 1)
      · rw [← ih (a + 1)]
        simp [Memory.get, Memory.find, Ne.symm hk]

/-! ### The primitives -/

theorem memRead_of_lt {a : Nat} {s : State} (h : a < 4096) : memRead a s = .ok (byteAt s a) := if_pos h

theorem memRead_of_ge {a : Nat} {s : State} (h : 4096 ≤ a) : memRead a s = .error (.memOutOfBounds .read a) :=
  if_neg (by simp only [memSize]; omega)

theorem memWrite_of_lt {a : Nat} {b : Byte} {s : State} (h : a < 4096) : memWrite a b s = .ok (setByte a b s) := if_pos h

theorem memWrite_of_ge {a : Nat} {b : Byte} {s : State} (h : 4096 ≤ a) :
    memWrite a b s = .error (.memOutOfBounds .write a) := if_neg (by simp only [memSize]; omega)

/-- A block read inside memory gives the bytes. -/
theorem readBlock_ok (a n : Nat) (s : State) (h : a + n ≤ 4096 ∨ n = 0) :
    readBlock a n s = .ok ((List.range' a n).map (byteAt s)) := by
  induction n generalizing a with
  | zero => rfl
  | succ n ih =>
    simp only [readBlock, memRead_of_lt (show a < 4096 by omega), ih (a + 1) (by omega), List.range'_succ, List.map_cons]

/-- A block read that leaves memory reports the first address outside it. -/
theorem readBlock_error (a n : Nat) (s : State) (h : 4096 < a + n) (hn : n ≠ 0) :
    readBlock a n s = .error (.memOutOfBounds .read (max a 4096)) := by
  induction n generalizing a with
  | zero => exact absurd rfl hn
  | succ n ih =>
    by_cases ha : a < 4096
    · simp only [readBlock, memRead_of_lt ha, ih (a + 1) (by omega) (by omega)]
      congr 2; omega
    · simp only [readBlock, memRead_of_ge (show 4096 ≤ a by omega)]
      congr 2; omega

/-- Setting some bytes from `a` up. -/
def setBlock : Nat → List Byte → State → State
  | _, [], s => s
  | a, b :: bs, s => setBlock (a + 1) bs (setByte a b s)

/-- A block write inside memory. -/
theorem writeBlock_ok (a : Nat) (bs : List Byte) (s : State) (h : a + bs.length ≤ 4096 ∨ bs = []) :
    writeBlock a bs s = .ok (setBlock a bs s) := by
  induction bs generalizing a s with
  | nil => rfl
  | cons b bs ih =>
    have hl : a + (bs.length + 1) ≤ 4096 := by simpa using h
    simp only [writeBlock, memWrite_of_lt (show a < 4096 by omega), setBlock]
    exact ih (a + 1) _ (.inl (by omega))

/-- A block write that leaves memory reports the first address outside it. -/
theorem writeBlock_error (a : Nat) (bs : List Byte) (s : State) (h : 4096 < a + bs.length) (hn : bs ≠ []) :
    writeBlock a bs s = .error (.memOutOfBounds .write (max a 4096)) := by
  induction bs generalizing a s with
  | nil => exact absurd rfl hn
  | cons b bs ih =>
    by_cases ha : a < 4096
    · simp only [List.length_cons] at h
      simp only [writeBlock, memWrite_of_lt ha]
      rw [ih (a + 1) _ (by omega) (by rintro rfl; simp only [List.length_nil] at h; omega)]
      congr 2; omega
    · simp only [writeBlock, memWrite_of_ge (show 4096 ≤ a by omega)]
      congr 2; omega

/-- A block of set bytes changes memory only. -/
theorem setBlock_frame (a : Nat) (bs : List Byte) (s : State) :
    setBlock a bs s = { s with mem := (setBlock a bs s).mem } := by
  induction bs generalizing a s with
  | nil => rfl
  | cons b bs ih => rw [setBlock, ih]; rfl

theorem byteAt_setBlock (a c : Nat) (bs : List Byte) (s : State) :
    byteAt (setBlock a bs s) c = if a ≤ c ∧ c < a + bs.length then bs.getD (c - a) 0 else byteAt s c := by
  induction bs generalizing a s with
  | nil => simp [setBlock]
  | cons b bs ih =>
    rw [setBlock, ih, byteAt_setByte]
    by_cases hc : c = a
    · subst hc; simp
    · by_cases h : a + 1 ≤ c ∧ c < a + 1 + bs.length
      · obtain ⟨j, rfl⟩ : ∃ j, c = a + 1 + j := ⟨c - (a + 1), by omega⟩
        have : a + 1 + j - a = j + 1 := by omega
        rw [if_pos h, if_pos (by simp only [List.length_cons]; omega), this]; simp
      · rw [if_neg h, if_neg hc, if_neg (by simp only [List.length_cons]; omega)]

theorem setBlock_wf (a : Nat) (bs : List Byte) (s : State) (h : a + bs.length ≤ 4096)
    (hs : Memory.wf s.cfg s.mem = true) : Memory.wf (setBlock a bs s).cfg (setBlock a bs s).mem = true := by
  induction bs generalizing a s with
  | nil => exact hs
  | cons b bs ih =>
    simp only [List.length_cons] at h
    exact ih (a + 1) _ (by omega) (Memory.set_wf hs (by omega))

theorem pokeByte_frame (a : Nat) (b : Byte) (s : State) : pokeByte a b s = { s with mem := (pokeByte a b s).mem } := by
  unfold pokeByte; split <;> rfl

theorem byteAt_pokeByte_other {a c : Nat} (b : Byte) (s : State) (h : c ≠ a) :
    byteAt (pokeByte a b s) c = byteAt s c := by
  unfold pokeByte; split
  · rw [byteAt_setByte, if_neg h]
  · rfl

theorem pokeByte_wf (a : Nat) (b : Byte) (s : State) (hs : Memory.wf s.cfg s.mem = true) :
    Memory.wf (pokeByte a b s).cfg (pokeByte a b s).mem = true := by
  unfold pokeByte; split
  · next h => exact Memory.set_wf hs h
  · exact hs

theorem freeBlock_frame (a n : Nat) (s : State) : freeBlock a n s = { s with mem := (freeBlock a n s).mem } := by
  induction n generalizing a s with
  | zero => rfl
  | succ n ih => rw [freeBlock, ih, pokeByte_frame]

theorem byteAt_freeBlock_other (a n c : Nat) (s : State) (h : c < a ∨ a + n ≤ c) :
    byteAt (freeBlock a n s) c = byteAt s c := by
  induction n generalizing a s with
  | zero => rfl
  | succ n ih => rw [freeBlock, ih _ _ (by omega), byteAt_pokeByte_other _ _ (by omega)]

theorem freeBlock_wf (a n : Nat) (s : State) (hs : Memory.wf s.cfg s.mem = true) :
    Memory.wf (freeBlock a n s).cfg (freeBlock a n s).mem = true := by
  induction n generalizing a s with
  | zero => exact hs
  | succ n ih => exact ih _ _ (pokeByte_wf _ _ _ hs)

end Sys2Proof.Machine
end

