-- ==== Sys2Proof/Laws/Ops.lean ====
section
/-! SUPPORT. One lemma or a few per shared operation: registers, the call stack, key states, the fetch, fault entry. -/

namespace Sys2Proof.Machine

/-! ### Registers -/

/-- A register read after a register write. -/
@[simp] theorem readV_writeV (x k : Reg) (b : Byte) (s : State) :
    readV (writeV x b s) k = if k = x then b else readV s k := by
  simp only [readV, writeV_v, Vector.getElem_set, Fin.ext_iff, eq_comm]

@[simp] theorem readV_writeI (w : Word) (k : Reg) (s : State) : readV (writeI w s) k = readV s k := rfl
@[simp] theorem readV_writePc (w : Word) (k : Reg) (s : State) : readV (writePc w s) k = readV s k := rfl
@[simp] theorem readV_writeDt (b : Byte) (k : Reg) (s : State) : readV (writeDt b s) k = readV s k := rfl
@[simp] theorem readV_writeSt (b : Byte) (k : Reg) (s : State) : readV (writeSt b s) k = readV s k := rfl
@[simp] theorem readV_writeWait (w : Option Reg) (k : Reg) (s : State) : readV (writeWait w s) k = readV s k := rfl
@[simp] theorem readV_writeDisp (d : Vector (BitVec 64) 32) (k : Reg) (s : State) :
    readV (writeDisp d s) k = readV s k := rfl
@[simp] theorem readV_setByte (a : Nat) (b : Byte) (k : Reg) (s : State) : readV (setByte a b s) k = readV s k := rfl
@[simp] theorem readV_countDraw (k : Reg) (s : State) : readV (countDraw s) k = readV s k := rfl

/-- Two register files are equal when every register reads the same. -/
theorem v_ext {s t : State} (h : ∀ k, readV s k = readV t k) : s.v = t.v :=
  Vector.ext fun k hk => h ⟨k, hk⟩

/-- Writing a block of registers changes registers only. -/
theorem writeRegsFrom_frame (k : Nat) (bs : List Byte) (s : State) :
    writeRegsFrom k bs s = { s with v := (writeRegsFrom k bs s).v } := by
  induction bs generalizing k s with
  | nil => rfl
  | cons b bs ih => rw [writeRegsFrom, ih]; split <;> rfl

theorem readV_writeRegsFrom (k : Nat) (bs : List Byte) (s : State) (r : Reg) :
    readV (writeRegsFrom k bs s) r = if k ≤ r.val ∧ r.val < k + bs.length then bs.getD (r.val - k) 0 else readV s r := by
  induction bs generalizing k s with
  | nil => simp [writeRegsFrom]
  | cons b bs ih =>
    rw [writeRegsFrom, ih]
    by_cases hr : r.val = k
    · have hk : k < 16 := by omega
      have : r = ⟨k, hk⟩ := Fin.ext hr
      subst this; simp [hk]
    · have hread : readV (if h : k < 16 then writeV ⟨k, h⟩ b s else s) r = readV s r := by
        split
        · rw [readV_writeV, if_neg (fun h => hr (by rw [h]))]
        · rfl
      by_cases h : k + 1 ≤ r.val ∧ r.val < k + 1 + bs.length
      · obtain ⟨j, hj⟩ : ∃ j, r.val = k + 1 + j := ⟨r.val - (k + 1), by omega⟩
        have e1 : r.val - (k + 1) = j := by omega
        have e2 : r.val - k = j + 1 := by omega
        rw [if_pos h, if_pos (by simp only [List.length_cons]; omega), e1, e2]; simp
      · rw [if_neg h, hread, if_neg (by simp only [List.length_cons]; omega)]

theorem readV_freeRegs (n : Nat) (s : State) (r : Reg) :
    readV (freeRegs n s) r = if r.val < n then Config.freeReg s.draws r else readV s r := by
  simp [readV, freeRegs]

@[simp] theorem regBlock_length (s : State) (x : Reg) : (regBlock s x).length = x.val + 1 := by
  simp only [regBlock, List.length_take, Vector.length_toList]; omega

theorem regBlock_getD (s : State) (x : Reg) (k : Nat) (h : k < x.val + 1) :
    (regBlock s x).getD k 0 = s.v[k]'(by omega) := by
  have hl : k < (regBlock s x).length := by simpa using h
  rw [List.getD_eq_getElem _ _ hl]
  simp [regBlock]

/-! ### Memory bytes are unchanged by every operation that is not over memory -/

@[simp] theorem byteAt_writeV (x : Reg) (b : Byte) (a : Nat) (s : State) : byteAt (writeV x b s) a = byteAt s a := rfl
@[simp] theorem byteAt_writeI (w : Word) (a : Nat) (s : State) : byteAt (writeI w s) a = byteAt s a := rfl
@[simp] theorem byteAt_writePc (w : Word) (a : Nat) (s : State) : byteAt (writePc w s) a = byteAt s a := rfl
@[simp] theorem byteAt_writeDisp (d : Vector (BitVec 64) 32) (a : Nat) (s : State) :
    byteAt (writeDisp d s) a = byteAt s a := rfl
@[simp] theorem byteAt_raise (f : Fault) (w : Word) (a : Nat) (s : State) : byteAt (raise f w s) a = byteAt s a := rfl
@[simp] theorem byteAt_raiseExec (f : Fault) (a : Nat) (s : State) : byteAt (raiseExec f s) a = byteAt s a := rfl

/-! ### The call stack -/

theorem pushPc_full {s : State} (h : s.sp.val = 16) : pushPc s = .error (.stackOverflow 16) := by
  rw [pushPc, dif_neg (by omega), h]

theorem pushPc_ok {s : State} (h : s.sp.val < 16) :
    pushPc s = .ok { s with stack := s.stack.set s.sp.val s.pc, sp := ⟨s.sp.val + 1, by omega⟩ } := dif_pos h

theorem popPc_empty {s : State} (h : s.sp.val = 0) : popPc s = .error (.stackUnderflow 0) := by
  rw [popPc, dif_pos h, h]

theorem popPc_ok {s : State} (h : s.sp.val ≠ 0) :
    popPc s = .ok { s with sp := ⟨s.sp.val - 1, by omega⟩, pc := s.stack[s.sp.val - 1]'(by omega) } := dif_neg h

/-- Everything a push can do. -/
theorem pushPc_cases (s : State) :
    (∃ h : s.sp.val < 16, pushPc s = .ok { s with stack := s.stack.set s.sp.val s.pc, sp := ⟨s.sp.val + 1, by omega⟩ }) ∨
    (s.sp.val = 16 ∧ pushPc s = .error (.stackOverflow 16)) := by
  by_cases h : s.sp.val < 16
  · exact .inl ⟨h, pushPc_ok h⟩
  · exact .inr ⟨by omega, pushPc_full (by omega)⟩

/-- Everything a pop can do. -/
theorem popPc_cases (s : State) :
    (∃ _ : s.sp.val ≠ 0,
      popPc s = .ok { s with sp := ⟨s.sp.val - 1, by omega⟩, pc := s.stack[s.sp.val - 1]'(by omega) }) ∨
    (s.sp.val = 0 ∧ popPc s = .error (.stackUnderflow 0)) := by
  by_cases h : s.sp.val = 0
  · exact .inr ⟨h, popPc_empty h⟩
  · exact .inl ⟨h, popPc_ok h⟩

/-- A free slot below SP keeps the bound of 10_state.md R41 (e). -/
theorem freeSlot_le (n : Nat) (sp : Fin 17) (k : Fin 16) (h : k.val < sp.val) : (freeSlot n sp k).toNat ≤ 0x1000 := by
  rw [freeSlot, if_pos h, BitVec.toNat_ofNat]; omega

/-- The free PC keeps the bound of 10_state.md R41 (c). -/
theorem raise_pc_le (f : Fault) (a : Word) (s : State) : (raise f a s).pc.toNat ≤ 0x10FE := by
  have := (Config.freePc s.draws).isLt
  rw [raise_pc, BitVec.toNat_ofNat]; omega

/-! ### Key states -/

theorem keyState_lt {b : Byte} {s : State} (h : b.toNat < 16) : keyState b s = (s.keys[b.toNat], s) := dif_pos h

theorem keyState_ge {b : Byte} {s : State} (h : 16 ≤ b.toNat) :
    keyState b s = (Config.keyOutOfRange s.draws b, countDraw s) := dif_neg (by omega)

/-- A key state read changes at most the draw counter. -/
theorem keyState_frame (b : Byte) (s : State) : (keyState b s).2 = { s with draws := (keyState b s).2.draws } := by
  unfold keyState; split <;> rfl

/-! ### The fetch -/

theorem fetch_ok {s : State} (h : s.pc.toNat ≤ 0xFFE) :
    fetch s = .ok (wordOfBytes (byteAt s s.pc.toNat) (byteAt s (s.pc.toNat + 1))) := by
  simp only [fetch, memRead_of_lt (show s.pc.toNat < 4096 by omega), memRead_of_lt (show s.pc.toNat + 1 < 4096 by omega)]

theorem fetch_error {s : State} (h : 0xFFF ≤ s.pc.toNat) :
    fetch s = .error (.memOutOfBounds .read (max s.pc.toNat 4096)) := by
  by_cases hp : s.pc.toNat = 0xFFF
  · simp only [fetch, memRead_of_lt (show s.pc.toNat < 4096 by omega), memRead_of_ge (show 4096 ≤ s.pc.toNat + 1 by omega)]
    congr 2; omega
  · simp only [fetch, memRead_of_ge (show 4096 ≤ s.pc.toNat by omega)]
    congr 2; omega

/-- Everything a fetch can do. -/
theorem fetch_cases (s : State) :
    (s.pc.toNat ≤ 0xFFE ∧ fetch s = .ok (wordOfBytes (byteAt s s.pc.toNat) (byteAt s (s.pc.toNat + 1)))) ∨
    (0xFFF ≤ s.pc.toNat ∧ fetch s = .error (.memOutOfBounds .read (max s.pc.toNat 4096))) := by
  by_cases h : s.pc.toNat ≤ 0xFFE
  · exact .inl ⟨h, fetch_ok h⟩
  · exact .inr ⟨by omega, fetch_error (by omega)⟩

theorem gated_eq_false {s : State} : gated s = false ↔ s.halted = none ∧ s.paused = false ∧ s.wait = none := by
  simp [gated, and_assoc]

/-- Everything cycle() can do. -/
theorem cycle_cases (s : State) :
    (gated s = true ∧ cycle s = .next s) ∨
    (gated s = false ∧ 0xFFF ≤ s.pc.toNat ∧
      cycle s = .next (raise (.memOutOfBounds .read (max s.pc.toNat 4096)) s.pc s)) ∨
    (gated s = false ∧ s.pc.toNat ≤ 0xFFE ∧ ∃ w, w = wordOfBytes (byteAt s s.pc.toNat) (byteAt s (s.pc.toNat + 1)) ∧
      cycle s = afterExec w (runWord w s.pc (writePc (s.pc + 2) s))) := by
  cases hg : gated s with
  | true => exact .inl ⟨rfl, by simp [cycle, hg]⟩
  | false =>
    rcases fetch_cases s with ⟨hp, hf⟩ | ⟨hp, hf⟩
    · exact .inr (.inr ⟨rfl, hp, _, rfl, by simp [cycle, hg, hf]⟩)
    · exact .inr (.inl ⟨rfl, hp, by simp [cycle, hg, hf]⟩)

end Sys2Proof.Machine
end

