-- ==== Sys2Proof/Laws/Display.lean ====
section
/-! SUPPORT. The blitter: what flipping a list of cells does, and which cells a sprite lands on. -/

namespace Sys2Proof.Machine

/-- Every cell of the cleared display is 0. -/
@[simp] theorem pixel_clear (px py : Nat) : pixel (Vector.replicate 32 0) px py = false := by
  unfold pixel
  by_cases hy : py < 32
  · rw [List.getD_eq_getElem _ _ (by simpa using hy), Vector.getElem_toList, Vector.getElem_replicate]; simp
  · rw [List.getD_eq_default _ _ (by simpa using hy)]; simp

/-- Flipping a cell changes that cell and no other. -/
theorem pixel_flipPixel (d : Vector (BitVec 64) 32) {p : Nat × Nat} (hx : p.1 < 64) (hy : p.2 < 32) (q : Nat × Nat) :
    pixel (flipPixel d p) q.1 q.2 = (pixel d q.1 q.2 ^^ decide (q = p)) := by
  by_cases hq : q.2 < 32
  · have e : ∀ d' : Vector (BitVec 64) 32, d'.toList.getD q.2 0 = d'[q.2] := fun d' => by
      rw [List.getD_eq_getElem _ _ (by simpa using hq)]; simp
    rw [pixel, pixel, e, e]
    simp only [flipPixel, Vector.getElem_setIfInBounds]
    by_cases hr : p.2 = q.2
    · have e' : d.toList.getD p.2 0 = d[q.2] := by rw [hr, e]
      rw [if_pos hr, e', BitVec.getLsbD_xor]
      congr 1
      by_cases hc : q.1 = p.1
      · have : q = p := Prod.ext hc hr.symm
        subst this; simp [hx]
      · have hne : q ≠ p := fun h => hc (by rw [h])
        simp only [BitVec.getLsbD_shiftLeft, BitVec.getLsbD_one, hne, decide_false]
        simp only [Bool.and_eq_false_iff, Bool.not_eq_false', decide_eq_false_iff_not, decide_eq_true_eq]
        omega
    · have hne : q ≠ p := fun h => hr (by rw [h])
      rw [if_neg hr]; simp [hne]
  · have hne : q ≠ p := fun h => hq (h ▸ hy)
    have e : ∀ d' : Vector (BitVec 64) 32, d'.toList.getD q.2 0 = 0 := fun d' => by
      rw [List.getD_eq_default]; simpa using hq
    rw [pixel, pixel, e, e]; simp [hne]

/-- Flipping a list of distinct cells: the cells after, and whether one of them held 1 before. -/
theorem drawCells_spec (ps : List (Nat × Nat)) (hp : ∀ p ∈ ps, p.1 < 64 ∧ p.2 < 32) (hn : ps.Nodup)
    (d : Vector (BitVec 64) 32) (c : Bool) :
    (∀ q : Nat × Nat, pixel (drawCells ps (d, c)).1 q.1 q.2 = (pixel d q.1 q.2 ^^ decide (q ∈ ps))) ∧
    ((drawCells ps (d, c)).2 = true ↔ c = true ∨ ∃ p ∈ ps, pixel d p.1 p.2 = true) := by
  induction ps generalizing d c with
  | nil => simp [drawCells]
  | cons p ps ih =>
    have hv := hp p List.mem_cons_self
    have hnd := List.nodup_cons.1 hn
    have hflip := pixel_flipPixel d hv.1 hv.2
    obtain ⟨h1, h2⟩ := ih (fun q hq => hp q (List.mem_cons_of_mem _ hq)) hnd.2 (flipPixel d p) (c || pixel d p.1 p.2)
    constructor
    · intro q
      rw [drawCells, h1, hflip, Bool.xor_assoc]
      congr 1
      by_cases hq : q = p
      · subst hq; simp [hnd.1]
      · simp [hq]
    · rw [drawCells, h2, Bool.or_eq_true, or_assoc]
      refine or_congr_right ?_
      have hrest : (∃ q ∈ ps, pixel (flipPixel d p) q.1 q.2 = true) ↔ ∃ q ∈ ps, pixel d q.1 q.2 = true := by
        refine exists_congr fun q => and_congr_right fun hq => ?_
        have : q ≠ p := fun h => hnd.1 (h ▸ hq)
        rw [hflip]; simp [this]
      simp only [List.mem_cons, exists_eq_or_imp, hrest]

theorem mem_setColumns {row : Byte} {c : Nat} : c ∈ setColumns row ↔ c < 8 ∧ row.getLsbD (7 - c) = true := by
  simp only [setColumns, List.mem_filter, List.mem_cons, List.not_mem_nil, or_false]
  refine and_congr_left fun _ => ?_
  omega

/-- Which cells a sprite lands on. -/
theorem mem_spriteCells {vx y : Nat} {rows : List Byte} {q : Nat × Nat} :
    q ∈ spriteCells vx y rows ↔
      ∃ r c, r < rows.length ∧ c < 8 ∧ (rows.getD r 0).getLsbD (7 - c) = true ∧
        q = ((vx + c) % 64, (y + r) % 32) := by
  induction rows generalizing y with
  | nil => simp [spriteCells]
  | cons row rows ih =>
    simp only [spriteCells, List.mem_append, List.mem_map, mem_setColumns, ih]
    constructor
    · rintro (⟨c, ⟨hc, hb⟩, rfl⟩ | ⟨r, c, hr, hc, hb, rfl⟩)
      · exact ⟨0, c, by simp, hc, by simpa using hb, by simp⟩
      · exact ⟨r + 1, c, by simpa using hr, hc, by simpa using hb, by rw [show y + 1 + r = y + (r + 1) by omega]⟩
    · rintro ⟨r, c, hr, hc, hb, rfl⟩
      cases r with
      | zero => exact .inl ⟨c, ⟨hc, by simpa using hb⟩, by simp⟩
      | succ r =>
        exact .inr ⟨r, c, by simpa using hr, hc, by simpa using hb, by rw [show y + 1 + r = y + (r + 1) by omega]⟩

theorem spriteCells_bounds (vx y : Nat) (rows : List Byte) : ∀ p ∈ spriteCells vx y rows, p.1 < 64 ∧ p.2 < 32 := by
  intro p hp
  obtain ⟨r, c, -, -, -, rfl⟩ := mem_spriteCells.1 hp
  exact ⟨Nat.mod_lt _ (by omega), Nat.mod_lt _ (by omega)⟩

/-- No cell is visited twice (45_display.md R171). -/
theorem spriteCells_nodup (vx y : Nat) (rows : List Byte) (h : rows.length ≤ 32) : (spriteCells vx y rows).Nodup := by
  induction rows generalizing y with
  | nil => simp [spriteCells]
  | cons row rows ih =>
    simp only [List.length_cons] at h
    refine List.Nodup.append ?_ (ih (y + 1) (by omega)) ?_
    · refine List.Nodup.map_on ?_ ((by decide : [0, 1, 2, 3, 4, 5, 6, 7].Nodup).filter _)
      intro a ha b hb hab
      have ha := (mem_setColumns.1 ha).1
      have hb := (mem_setColumns.1 hb).1
      have := (Prod.mk.inj hab).1
      omega
    · intro q hq hq'
      obtain ⟨c, -, rfl⟩ := List.mem_map.1 hq
      obtain ⟨r, c', hr, -, -, he⟩ := mem_spriteCells.1 hq'
      have := (Prod.mk.inj he).2
      omega

/-- What drawing a sprite of at most 32 rows does (45_display.md R171, R172). -/
theorem drawSprite_spec (vx vy : Nat) (rows : List Byte) (h : rows.length ≤ 32) (d : Vector (BitVec 64) 32) :
    (∀ q : Nat × Nat, pixel (drawSprite vx vy rows d).1 q.1 q.2 =
      (pixel d q.1 q.2 ^^ decide (q ∈ spriteCells vx vy rows))) ∧
    ((drawSprite vx vy rows d).2 = true ↔ ∃ p ∈ spriteCells vx vy rows, pixel d p.1 p.2 = true) := by
  have := drawCells_spec _ (spriteCells_bounds vx vy rows) (spriteCells_nodup vx vy rows h) d false
  simpa [drawSprite] using this

/-- Two displays are equal when every cell is. -/
theorem disp_ext {d e : Vector (BitVec 64) 32}
    (h : ∀ px py, px < 64 → py < 32 → pixel d px py = pixel e px py) : d = e := by
  refine Vector.ext fun py hy => BitVec.eq_of_getLsbD_eq fun px hx => ?_
  have e' : ∀ d' : Vector (BitVec 64) 32, d'.toList.getD py 0 = d'[py] := fun d' => by
    rw [List.getD_eq_getElem _ _ (by simpa using hy)]; simp
  have := h px py hx hy
  rwa [pixel, pixel, e', e'] at this

end Sys2Proof.Machine
end

