-- ==== Sys2Proof/Laws/Exec.lean ====
section
/-! SUPPORT. Everything a meaning over a shared operation, a cycle and a step can do: one lemma each, cited in place of unfolding. -/

namespace Sys2Proof.Machine

/-! ### Registers and flags -/

theorem onlyRegs_writeV (x : Reg) (b : Byte) (s : State) : OnlyRegs (· = x) s (writeV x b s) :=
  ⟨rfl, fun k hk => by rw [readV_writeV, if_neg hk]⟩

theorem onlyRegs_writeV_flag (x : Reg) (b c : Byte) (s : State) :
    OnlyRegs (fun k => k = x ∨ k = 15) s (writeV x b (writeV VF c s)) := by
  refine ⟨rfl, fun k hk => ?_⟩
  obtain ⟨h1, h2⟩ := not_or.1 hk
  rw [readV_writeV, if_neg h1, readV_writeV, if_neg h2]

theorem flag_toNat (p : Bool) : (flag p).toNat = if p = true then 1 else 0 := by cases p <;> rfl

theorem lowBit_toNat (b : Byte) : (lowBit b).toNat = b.toNat % 2 := by simp [lowBit, Nat.and_one_is_mod]

theorem highBit_toNat (b : Byte) : (highBit b).toNat = b.toNat / 128 := by
  have := b.isLt
  simp [highBit, Nat.and_one_is_mod, Nat.shiftRight_eq_div_pow]; omega

/-! ### Skips -/

theorem skipIf_pc (c : Bool) (s : State) : (skipIf c s).pc = if c = true then s.pc + 2 else s.pc := by cases c <;> rfl

theorem skipIf_frame (c : Bool) (s : State) : skipIf c s = { s with pc := (skipIf c s).pc } := by cases c <;> rfl

/-! ### Fault entry -/

/-- Entering a fault of the execute phase changes four fields. -/
theorem raiseExec_frame (f : Fault) (s : State) :
    raiseExec f s = { s with halted := (raiseExec f s).halted, pc := (raiseExec f s).pc,
                             lastOpcode := (raiseExec f s).lastOpcode, draws := (raiseExec f s).draws } := rfl

/-! ### Stores, loads and draws -/

theorem storeAtI_ok {bs : List Byte} {s : State} (h : s.i.toNat + bs.length ≤ 4096) :
    storeAtI bs s = setBlock s.i.toNat bs s := by
  unfold storeAtI; simp only [indexAddr, Nat.add_zero]; rw [writeBlock_ok _ _ _ (.inl h)]

theorem storeAtI_error {bs : List Byte} {s : State} (h : 4096 < s.i.toNat + bs.length) (hb : bs ≠ []) :
    storeAtI bs s = raiseExec (.memOutOfBounds .write (max s.i.toNat 4096)) (freeBlock s.i.toNat bs.length s) := by
  unfold storeAtI; simp only [indexAddr, Nat.add_zero]; rw [writeBlock_error _ _ _ h hb]

/-- A store at I changes memory only, or enters a fault over a changed memory. -/
theorem storeAtI_cases (bs : List Byte) (s : State) :
    (∃ m, storeAtI bs s = { s with mem := m }) ∨ ∃ m f, storeAtI bs s = raiseExec f { s with mem := m } := by
  by_cases h : s.i.toNat + bs.length ≤ 4096
  · left; rw [storeAtI_ok h, setBlock_frame]; exact ⟨_, rfl⟩
  · by_cases hb : bs = []
    · subst hb; exact .inl ⟨s.mem, rfl⟩
    · right; rw [storeAtI_error (by omega) hb, freeBlock_frame]; exact ⟨_, _, rfl⟩

/-- Everything Fx65 can do. -/
theorem loadRegs_cases (x : Reg) (s : State) :
    (s.i.toNat + x.val < 4096 ∧
      exec (.loadRegs x) s = .next (writeRegsFrom 0 ((List.range' s.i.toNat (x.val + 1)).map (byteAt s)) s)) ∨
    (4096 ≤ s.i.toNat + x.val ∧ exec (.loadRegs x) s =
      .next (raiseExec (.memOutOfBounds .read (max s.i.toNat 4096)) (freeRegs (x.val + 1) s))) := by
  by_cases h : s.i.toNat + x.val < 4096
  · left; refine ⟨h, ?_⟩
    simp only [exec, execLoadRegs, indexAddr, Nat.add_zero, readBlock_ok s.i.toNat (x.val + 1) s (.inl (by omega))]
  · right; refine ⟨by omega, ?_⟩
    simp only [exec, execLoadRegs, indexAddr, Nat.add_zero,
      readBlock_error s.i.toNat (x.val + 1) s (by omega) (by omega)]

/-- The sprite DRW reads. -/
def sprite (s : State) (n : Nibble) : List Byte := (List.range' s.i.toNat n.toNat).map (byteAt s)

/-- Everything DRW can do. -/
theorem drw_cases (x y : Reg) (n : Nibble) (s : State) :
    (SpriteReadable s n ∧ exec (.drw x y n) s =
      .next (writeV VF (flag (drawSprite (readV s x).toNat (readV s y).toNat (sprite s n) s.disp).2)
        (writeDisp (drawSprite (readV s x).toNat (readV s y).toNat (sprite s n) s.disp).1 s))) ∨
    (¬ SpriteReadable s n ∧ exec (.drw x y n) s =
      .next (raiseExec (.memOutOfBounds .read (max s.i.toNat 4096)) (freeDrawTargets x y n s))) := by
  by_cases h : SpriteReadable s n
  · left; refine ⟨h, ?_⟩
    simp only [exec, execDrw, indexAddr, Nat.add_zero, sprite]
    rw [readBlock_ok _ _ _ (by unfold SpriteReadable at h; omega)]
  · have hn : n.toNat ≠ 0 ∧ 4096 < s.i.toNat + n.toNat := by unfold SpriteReadable at h; omega
    right; refine ⟨h, ?_⟩
    simp only [exec, execDrw, indexAddr, Nat.add_zero, readBlock_error _ _ _ hn.2 hn.1]

/-- After a DRW that faulted, every cell outside the sprite's box reads as before. -/
theorem pixel_freeDrawTargets (x y : Reg) (n : Nibble) (s : State) {px py : Nat} (h : ¬ InSpriteBox s x y n px py) :
    pixel (freeDrawTargets x y n s).disp px py = pixel s.disp px py := by
  have hn := n.isLt
  have hspec := (drawSprite_spec (readV s x).toNat (readV s y).toNat ((List.range n.toNat).map (Config.freeRow s.draws))
    (by rw [List.length_map, List.length_range]; omega) s.disp).1 (px, py)
  refine hspec.trans ?_
  rw [decide_eq_false, Bool.xor_false]
  intro hm
  obtain ⟨r, c, hr, hc, -, he⟩ := mem_spriteCells.1 hm
  rw [List.length_map, List.length_range] at hr
  exact h ⟨r, c, hr, hc, (Prod.mk.inj he).1, (Prod.mk.inj he).2⟩

/-- A DRW that faulted does not clear dirty (45_display.md R173). -/
theorem dirty_freeDrawTargets (x y : Reg) (n : Nibble) (s : State) (h : s.dirty = true) :
    (freeDrawTargets x y n s).dirty = true := by
  show (s.dirty || _) = true
  rw [h, Bool.true_or]

/-- Freeing the targets of a DRW changes three fields. -/
theorem freeDrawTargets_frame (x y : Reg) (n : Nibble) (s : State) :
    freeDrawTargets x y n s = { s with disp := (freeDrawTargets x y n s).disp, dirty := (freeDrawTargets x y n s).dirty,
                                       v := (freeDrawTargets x y n s).v } := rfl

/-- Of the registers, only VF is freed. -/
theorem readV_freeDrawTargets (x y : Reg) (n : Nibble) (s : State) {k : Reg} (h : k ≠ 15) :
    readV (freeDrawTargets x y n s) k = readV s k :=
  (readV_writeV VF k _ s).trans (if_neg h)

/-- The cells the blitter visits are the cells the sprite covers. -/
theorem mem_spriteCells_iff_covers (s : State) (x y : Reg) (n : Nibble) (px py : Nat) :
    (px, py) ∈ spriteCells (readV s x).toNat (readV s y).toNat (sprite s n) ↔ SpriteCovers s x y n px py := by
  rw [mem_spriteCells]
  unfold SpriteCovers sprite
  constructor
  · rintro ⟨r, c, hr, hc, hb, he⟩
    simp at hr
    rw [List.getD_eq_getElem _ _ (by simpa using hr)] at hb
    exact ⟨r, c, hr, hc, by simpa using hb, (Prod.mk.inj he).1, (Prod.mk.inj he).2⟩
  · rintro ⟨r, c, hr, hc, hb, rfl, rfl⟩
    refine ⟨r, c, by simpa using hr, hc, ?_, rfl⟩
    rw [List.getD_eq_getElem _ _ (by simpa using hr)]; simpa using hb

/-! ### The execute phase, the cycle and the step -/

/-- Every meaning answers a next state. -/
theorem exec_next (i : Instr) (s : State) : ∃ t, exec i s = .next t := by
  cases i <;> simp only [exec]
  case ret => unfold execRet; split <;> exact ⟨_, rfl⟩
  case call => unfold execCall; split <;> exact ⟨_, rfl⟩
  case drw => unfold execDrw; split <;> exact ⟨_, rfl⟩
  case loadRegs => unfold execLoadRegs; split <;> exact ⟨_, rfl⟩
  case addI => unfold execAddI; dsimp only; split <;> exact ⟨_, rfl⟩
  all_goals exact ⟨_, rfl⟩

theorem cycle_gated {s : State} (h : gated s = true) : cycle s = .next s := if_pos h

theorem CycleDue.gated_false {s : State} (h : CycleDue s) : gated s = false :=
  gated_eq_false.2 ⟨h.notHalted, h.notPaused, h.notWaiting⟩

theorem step_of_empty {s : State} (h : s.schedule = []) : step s = cycle s := by simp [step, nextOp, h, applyOp]

theorem step_of_cons {s : State} {op : HostOp} {rest : List HostOp} (h : s.schedule = op :: rest) :
    step s = applyOp op { s with schedule := rest } := by simp [step, nextOp, h]

/-- A due cycle whose fetch succeeds. -/
theorem step_of_due {s : State} (h : CycleDue s) (hp : s.pc.toNat ≤ 0xFFE) :
    step s = afterExec (wordAtPc s) (runWord (wordAtPc s) s.pc (writePc (s.pc + 2) s)) := by
  have hg := h.gated_false
  rw [step_of_empty h.noneScheduled]
  simp [cycle, hg, fetch_ok hp, wordAtPc]

end Sys2Proof.Machine
end

