-- ==== Sys2Proof/Laws/PerInstr.lean ====
section
/-! SUPPORT. The family TableRow: the word of every instruction has the fixed bits its row of spec/opcode_table.json gives, one lemma
per constructor. The fixed bits are copied from that table's "fixed" column, not from the encoder. -/

namespace Sys2Proof.Laws

/-- Bits hi down to lo of a word have a value. -/
abbrev HasBits (w : Word) (f : Nat × Nat × Nat) : Prop := w.toNat / 2 ^ f.2.1 % 2 ^ (f.1 + 1 - f.2.1) = f.2.2

/-- The fixed bits (hi, lo, value) of an instruction's row in spec/opcode_table.json. -/
def tableFixed : Instr → List (Nat × Nat × Nat)
  | .cls => [(15, 0, 224)]
  | .ret => [(15, 0, 238)]
  | .jp _ => [(15, 12, 1)]
  | .call _ => [(15, 12, 2)]
  | .seImm _ _ => [(15, 12, 3)]
  | .sneImm _ _ => [(15, 12, 4)]
  | .seReg _ _ => [(3, 0, 0), (15, 12, 5)]
  | .ldImm _ _ => [(15, 12, 6)]
  | .addImm _ _ => [(15, 12, 7)]
  | .ldReg _ _ => [(3, 0, 0), (15, 12, 8)]
  | .orReg _ _ => [(3, 0, 1), (15, 12, 8)]
  | .andReg _ _ => [(3, 0, 2), (15, 12, 8)]
  | .xorReg _ _ => [(3, 0, 3), (15, 12, 8)]
  | .addReg _ _ => [(3, 0, 4), (15, 12, 8)]
  | .sub _ _ => [(3, 0, 5), (15, 12, 8)]
  | .shr _ _ => [(3, 0, 6), (15, 12, 8)]
  | .subn _ _ => [(3, 0, 7), (15, 12, 8)]
  | .shl _ _ => [(3, 0, 14), (15, 12, 8)]
  | .sneReg _ _ => [(3, 0, 0), (15, 12, 9)]
  | .ldI _ => [(15, 12, 10)]
  | .jpV0 _ => [(15, 12, 11)]
  | .rnd _ _ => [(15, 12, 12)]
  | .drw _ _ _ => [(15, 12, 13)]
  | .skp _ => [(7, 0, 158), (15, 12, 14)]
  | .sknp _ => [(7, 0, 161), (15, 12, 14)]
  | .ldFromDt _ => [(7, 0, 7), (15, 12, 15)]
  | .ldKey _ => [(7, 0, 10), (15, 12, 15)]
  | .ldToDt _ => [(7, 0, 21), (15, 12, 15)]
  | .ldToSt _ => [(7, 0, 24), (15, 12, 15)]
  | .addI _ => [(7, 0, 30), (15, 12, 15)]
  | .ldFont _ => [(7, 0, 41), (15, 12, 15)]
  | .ldBcd _ => [(7, 0, 51), (15, 12, 15)]
  | .storeRegs _ => [(7, 0, 85), (15, 12, 15)]
  | .loadRegs _ => [(7, 0, 101), (15, 12, 15)]

/-- The word of the instruction has the table's fixed bits. -/
def TableRow.Statement (i : Instr) : Prop := ∀ f ∈ tableFixed i, HasBits (encode i) f

section
variable (x y : Reg) (n : Nibble) (nn : Byte) (nnn : Addr)

/-- The fixed bits of a word laid out as `Onnn`. -/
theorem packNNN_hasBits (op : Nibble) : HasBits (packNNN op nnn) (15, 12, op.toNat) := by
  have := op.isLt; have := nnn.isLt
  simp only [HasBits, packNNN_toNat]; omega

/-- The fixed bits of a word laid out as `Oxnn`. -/
theorem packXNN_hasBits (op : Nibble) :
    HasBits (packXNN op x nn) (15, 12, op.toNat) ∧ HasBits (packXNN op x nn) (7, 0, nn.toNat) := by
  have := op.isLt; have := x.isLt; have := nn.isLt
  simp only [HasBits, packXNN_toNat]; omega

/-- The fixed bits of a word laid out as `Oxyn`. -/
theorem packXYN_hasBits (op : Nibble) :
    HasBits (packXYN op x y n) (15, 12, op.toNat) ∧ HasBits (packXYN op x y n) (3, 0, n.toNat) := by
  have := op.isLt; have := x.isLt; have := y.isLt; have := n.isLt
  simp only [HasBits, packXYN_toNat]; omega

theorem TableRow.cls : TableRow.Statement .cls := by simp [TableRow.Statement, tableFixed, HasBits, encode]
theorem TableRow.ret : TableRow.Statement .ret := by simp [TableRow.Statement, tableFixed, HasBits, encode]
theorem TableRow.jp : TableRow.Statement (.jp nnn) := by
  simpa [TableRow.Statement, tableFixed, encode] using packNNN_hasBits nnn 0x1
theorem TableRow.call : TableRow.Statement (.call nnn) := by
  simpa [TableRow.Statement, tableFixed, encode] using packNNN_hasBits nnn 0x2
theorem TableRow.seImm : TableRow.Statement (.seImm x nn) := by
  simpa [TableRow.Statement, tableFixed, encode] using (packXNN_hasBits x nn 0x3).1
theorem TableRow.sneImm : TableRow.Statement (.sneImm x nn) := by
  simpa [TableRow.Statement, tableFixed, encode] using (packXNN_hasBits x nn 0x4).1
theorem TableRow.seReg : TableRow.Statement (.seReg x y) := by
  simpa [TableRow.Statement, tableFixed, encode] using (packXYN_hasBits x y 0x0 0x5).symm
theorem TableRow.ldImm : TableRow.Statement (.ldImm x nn) := by
  simpa [TableRow.Statement, tableFixed, encode] using (packXNN_hasBits x nn 0x6).1
theorem TableRow.addImm : TableRow.Statement (.addImm x nn) := by
  simpa [TableRow.Statement, tableFixed, encode] using (packXNN_hasBits x nn 0x7).1
theorem TableRow.ldReg : TableRow.Statement (.ldReg x y) := by
  simpa [TableRow.Statement, tableFixed, encode] using (packXYN_hasBits x y 0x0 0x8).symm
theorem TableRow.orReg : TableRow.Statement (.orReg x y) := by
  simpa [TableRow.Statement, tableFixed, encode] using (packXYN_hasBits x y 0x1 0x8).symm
theorem TableRow.andReg : TableRow.Statement (.andReg x y) := by
  simpa [TableRow.Statement, tableFixed, encode] using (packXYN_hasBits x y 0x2 0x8).symm
theorem TableRow.xorReg : TableRow.Statement (.xorReg x y) := by
  simpa [TableRow.Statement, tableFixed, encode] using (packXYN_hasBits x y 0x3 0x8).symm
theorem TableRow.addReg : TableRow.Statement (.addReg x y) := by
  simpa [TableRow.Statement, tableFixed, encode] using (packXYN_hasBits x y 0x4 0x8).symm
theorem TableRow.sub : TableRow.Statement (.sub x y) := by
  simpa [TableRow.Statement, tableFixed, encode] using (packXYN_hasBits x y 0x5 0x8).symm
theorem TableRow.shr : TableRow.Statement (.shr x y) := by
  simpa [TableRow.Statement, tableFixed, encode] using (packXYN_hasBits x y 0x6 0x8).symm
theorem TableRow.subn : TableRow.Statement (.subn x y) := by
  simpa [TableRow.Statement, tableFixed, encode] using (packXYN_hasBits x y 0x7 0x8).symm
theorem TableRow.shl : TableRow.Statement (.shl x y) := by
  simpa [TableRow.Statement, tableFixed, encode] using (packXYN_hasBits x y 0xE 0x8).symm
theorem TableRow.sneReg : TableRow.Statement (.sneReg x y) := by
  simpa [TableRow.Statement, tableFixed, encode] using (packXYN_hasBits x y 0x0 0x9).symm
theorem TableRow.ldI : TableRow.Statement (.ldI nnn) := by
  simpa [TableRow.Statement, tableFixed, encode] using packNNN_hasBits nnn 0xA
theorem TableRow.jpV0 : TableRow.Statement (.jpV0 nnn) := by
  simpa [TableRow.Statement, tableFixed, encode] using packNNN_hasBits nnn 0xB
theorem TableRow.rnd : TableRow.Statement (.rnd x nn) := by
  simpa [TableRow.Statement, tableFixed, encode] using (packXNN_hasBits x nn 0xC).1
theorem TableRow.drw : TableRow.Statement (.drw x y n) := by
  simpa [TableRow.Statement, tableFixed, encode] using (packXYN_hasBits x y n 0xD).1
theorem TableRow.skp : TableRow.Statement (.skp x) := by
  simpa [TableRow.Statement, tableFixed, encode] using (packXNN_hasBits x 0x9E 0xE).symm
theorem TableRow.sknp : TableRow.Statement (.sknp x) := by
  simpa [TableRow.Statement, tableFixed, encode] using (packXNN_hasBits x 0xA1 0xE).symm
theorem TableRow.ldFromDt : TableRow.Statement (.ldFromDt x) := by
  simpa [TableRow.Statement, tableFixed, encode] using (packXNN_hasBits x 0x07 0xF).symm
theorem TableRow.ldKey : TableRow.Statement (.ldKey x) := by
  simpa [TableRow.Statement, tableFixed, encode] using (packXNN_hasBits x 0x0A 0xF).symm
theorem TableRow.ldToDt : TableRow.Statement (.ldToDt x) := by
  simpa [TableRow.Statement, tableFixed, encode] using (packXNN_hasBits x 0x15 0xF).symm
theorem TableRow.ldToSt : TableRow.Statement (.ldToSt x) := by
  simpa [TableRow.Statement, tableFixed, encode] using (packXNN_hasBits x 0x18 0xF).symm
theorem TableRow.addI : TableRow.Statement (.addI x) := by
  simpa [TableRow.Statement, tableFixed, encode] using (packXNN_hasBits x 0x1E 0xF).symm
theorem TableRow.ldFont : TableRow.Statement (.ldFont x) := by
  simpa [TableRow.Statement, tableFixed, encode] using (packXNN_hasBits x 0x29 0xF).symm
theorem TableRow.ldBcd : TableRow.Statement (.ldBcd x) := by
  simpa [TableRow.Statement, tableFixed, encode] using (packXNN_hasBits x 0x33 0xF).symm
theorem TableRow.storeRegs : TableRow.Statement (.storeRegs x) := by
  simpa [TableRow.Statement, tableFixed, encode] using (packXNN_hasBits x 0x55 0xF).symm
theorem TableRow.loadRegs : TableRow.Statement (.loadRegs x) := by
  simpa [TableRow.Statement, tableFixed, encode] using (packXNN_hasBits x 0x65 0xF).symm

end

end Sys2Proof.Laws
end

