-- ==== Sys2Proof/Tests/Slice0.lean ====
section
/-! SUPPORT. The model's own tests: ill-formed assembler lines, words written out from 30_encoding.md R86, one step per instruction
with the results spec/95_test_vectors.md gives, and for each statement with hypotheses a state that meets them. -/

namespace Sys2Proof.Tests

open Sys2Proof Sys2Proof.Machine

/-! ### Helpers -/

/-- A next state in which `p` holds. -/
def reaches (r : Result) (p : State → Bool) : Bool :=
  match r with
  | .next t => p t
  | .fault _ => false
  | .refused _ => false

/-- One step over the word `w`, placed where `s` fetches, reaches `p`. -/
def runs (w : Nat) (s : State) (p : State → Bool) : Bool := reaches (step (s.withFetchWord 16 w)) p

/-- A host operation, applied by one step, reaches `p`. -/
def applies (op : HostOp) (s : State) (p : State → Bool) : Bool := reaches (step { s with schedule := [op] }) p

/-- The reset state. -/
def s0 : State := State.reset

/-- The reset state with V[x] = a and V[y] = b. -/
def withV (x : Reg) (a : Byte) (y : Reg) (b : Byte) : State := writeV y b (writeV x a s0)

/-- The reset state with I = w. -/
def withI (w : Word) : State := { s0 with i := w }

/-- The record of a fault in the word at 0x200. -/
def recordAt200 (f : Fault) : Option FaultRecord := some { fault := f, fetchedAt := 0x200 }

/-- A halted block. -/
def halted0 : State := { s0 with halted := recordAt200 (.stackUnderflow 0) }

/-- A block that waits for a key, with the target V3. -/
def waiting3 : State := { s0 with wait := some 3 }

/-! ### Ill-formed assembler lines are refused (30_encoding.md R91, R92) -/

theorem test_line_nn_256 : Line.wellFormed ⟨.LD, [.reg 0, .num 256]⟩ = false := by decide
theorem test_line_nnn_0x1000 : Line.wellFormed ⟨.CALL, [.num 0x1000]⟩ = false := by decide
theorem test_line_n_16 : Line.wellFormed ⟨.DRW, [.reg 0, .reg 1, .num 16]⟩ = false := by decide
theorem test_line_jp_v1 : Line.wellFormed ⟨.JP, [.reg 1, .num 0x300]⟩ = false := by decide
theorem test_line_wrong_kind : Line.wellFormed ⟨.LD, [.DT, .ST]⟩ = false := by decide
theorem test_line_missing_operand : Line.wellFormed ⟨.SE, [.reg 1]⟩ = false := by decide
theorem test_line_extra_operand : Line.wellFormed ⟨.CLS, [.reg 1]⟩ = false := by decide
theorem test_line_limits : (assemble ⟨.LD, [.reg 0, .num 255]⟩, assemble ⟨.LD, [.I, .num 0xFFF]⟩,
    assemble ⟨.DRW, [.reg 0, .reg 1, .num 15]⟩) = (some (.ldImm 0 0xFF), some (.ldI 0xFFF), some (.drw 0 1 0xF)) := by decide

/-! ### Words written out from the patterns of 30_encoding.md R86, every constructor -/

theorem test_decode_fixed : decodeWord 0b0000_0000_1110_0000 = some .cls ∧ decodeWord 0b0000_0000_1110_1110 = some .ret := by
  decide
theorem test_decode_address : decodeWord 0b0001_1010_1011_1100 = some (.jp 0xABC) ∧
    decodeWord 0b0010_1010_1011_1100 = some (.call 0xABC) ∧ decodeWord 0b1010_0011_0000_0000 = some (.ldI 0x300) ∧
    decodeWord 0b1011_1111_1111_1111 = some (.jpV0 0xFFF) := by decide
theorem test_decode_immediate : decodeWord 0b0011_0001_0100_0010 = some (.seImm 1 0x42) ∧
    decodeWord 0b0100_0001_0100_0010 = some (.sneImm 1 0x42) ∧ decodeWord 0b0110_1010_0111_1111 = some (.ldImm 0xA 0x7F) ∧
    decodeWord 0b0111_0000_0000_0001 = some (.addImm 0 1) ∧ decodeWord 0b1100_0000_0000_1111 = some (.rnd 0 0x0F) := by decide
theorem test_decode_two_registers : decodeWord 0b0101_0001_0010_0000 = some (.seReg 1 2) ∧
    decodeWord 0b1001_0001_0010_0000 = some (.sneReg 1 2) ∧ decodeWord 0b1101_0001_0010_0101 = some (.drw 1 2 5) := by decide
theorem test_decode_group8_low : decodeWord 0b1000_0001_0010_0000 = some (.ldReg 1 2) ∧
    decodeWord 0b1000_0001_0010_0001 = some (.orReg 1 2) ∧ decodeWord 0b1000_0001_0010_0010 = some (.andReg 1 2) ∧
    decodeWord 0b1000_0001_0010_0011 = some (.xorReg 1 2) ∧ decodeWord 0b1000_0001_0010_0100 = some (.addReg 1 2) := by decide
theorem test_decode_group8_high : decodeWord 0b1000_0001_0010_0101 = some (.sub 1 2) ∧
    decodeWord 0b1000_0001_0010_0110 = some (.shr 1 2) ∧ decodeWord 0b1000_0001_0010_0111 = some (.subn 1 2) ∧
    decodeWord 0b1000_0001_0010_1110 = some (.shl 1 2) := by decide
theorem test_decode_keys : decodeWord 0b1110_0001_1001_1110 = some (.skp 1) ∧
    decodeWord 0b1110_0001_1010_0001 = some (.sknp 1) ∧ decodeWord 0b1111_0011_0000_1010 = some (.ldKey 3) := by decide
theorem test_decode_timers : decodeWord 0b1111_0011_0000_0111 = some (.ldFromDt 3) ∧
    decodeWord 0b1111_0011_0001_0101 = some (.ldToDt 3) ∧ decodeWord 0b1111_0011_0001_1000 = some (.ldToSt 3) := by decide
theorem test_decode_index : decodeWord 0b1111_0010_0001_1110 = some (.addI 2) ∧
    decodeWord 0b1111_0010_0010_1001 = some (.ldFont 2) ∧ decodeWord 0b1111_0010_0011_0011 = some (.ldBcd 2) ∧
    decodeWord 0b1111_0010_0101_0101 = some (.storeRegs 2) ∧ decodeWord 0b1111_0010_0110_0101 = some (.loadRegs 2) := by decide

/-- Unrecognised words (95_test_vectors.md K1 to K6). -/
theorem test_decode_unrecognised : decodeWord 0x8008 = none ∧ decodeWord 0x5121 = none ∧ decodeWord 0x0123 = none ∧
    decodeWord 0x00E1 = none ∧ decodeWord 0xE09F = none ∧ decodeWord 0xF019 = none := by decide

/-- The host's numbering of a word, laid out and decoded. -/
theorem test_decode_table_word : decodeTableWord 16 0xD125 = some (.drw 1 2 5) ∧ decodeTableWord 16 0x8008 = none := by decide

/-! ### One step per instruction; expected values from 95_test_vectors.md, its row named -/

theorem test_cls : runs 0x00E0 { s0 with disp := Vector.replicate 32 0xFFFFFFFFFFFFFFFF, dirty := false }
    (fun t => t.disp == Vector.replicate 32 0 && t.dirty && t.pc == 0x202) = true := by decide  -- D-1
theorem test_ret : runs 0x00EE { s0 with sp := 1, stack := (Vector.replicate 16 0).set 0 0x346 }
    (fun t => t.sp == 0 && t.pc == 0x346) = true := by decide  -- F3
theorem test_ret_empty : runs 0x00EE s0 (fun t => t.halted == recordAt200 (.stackUnderflow 0)) = true := by decide  -- F4
theorem test_jp : runs 0x1ABC s0 (fun t => t.pc == 0xABC && t.lastOpcode == some 0x1ABC) = true := by decide  -- F1
theorem test_call : runs 0x2ABC s0 (fun t => t.stack[0] == 0x202 && t.sp == 1 && t.pc == 0xABC) = true := by decide  -- F2
theorem test_call_full : runs 0x2300 { s0 with sp := 16 }
    (fun t => t.halted == recordAt200 (.stackOverflow 16)) = true := by decide  -- F5
theorem test_jp_v0_beyond : runs 0xBFFF (withV 0 0xFF 1 0) (fun t => t.pc == 0x10FE && t.halted == none) = true := by decide  -- F7
theorem test_jp_v0_x_nibble : runs 0xB1FE (withV 0 2 1 0x77) (fun t => t.pc == 0x200) = true := by decide  -- F8
theorem test_se_imm : runs 0x3142 (withV 1 0x42 0 0) (fun t => t.pc == 0x204) &&
    runs 0x3143 (withV 1 0x42 0 0) (fun t => t.pc == 0x202) = true := by decide  -- S1, S2
theorem test_sne_imm : runs 0x4142 (withV 1 0x42 0 0) (fun t => t.pc == 0x202) &&
    runs 0x4143 (withV 1 0x42 0 0) (fun t => t.pc == 0x204) = true := by decide  -- S3, S4
theorem test_se_reg : runs 0x5120 (withV 1 9 2 9) (fun t => t.pc == 0x204) &&
    runs 0x5120 (withV 1 9 2 8) (fun t => t.pc == 0x202) = true := by decide  -- S5, S6
theorem test_sne_reg : runs 0x9120 (withV 1 9 2 8) (fun t => t.pc == 0x204) &&
    runs 0x9120 (withV 1 9 2 9) (fun t => t.pc == 0x202) = true := by decide  -- S7, S8
theorem test_skp : runs 0xE19E { withV 1 5 0 0 with keys := (Vector.replicate 16 false).set 5 true } (fun t => t.pc == 0x204) &&
    runs 0xE19E (withV 1 5 0 0) (fun t => t.pc == 0x202) = true := by decide  -- S9, S10
theorem test_sknp : runs 0xE1A1 (withV 1 5 0 0) (fun t => t.pc == 0x204) &&
    runs 0xE1A1 { withV 1 5 0 0 with keys := (Vector.replicate 16 false).set 5 true } (fun t => t.pc == 0x202) = true := by
  decide  -- S11, S12
theorem test_ld_imm : runs 0x6A7F s0 (fun t => readV t 0xA == 0x7F && readV t 0 == 0) = true := by decide  -- A1
theorem test_add_imm_wraps : runs 0x7001 (withV 0 0xFF 15 0x55) (fun t => readV t 0 == 0 && readV t 15 == 0x55) = true := by
  decide  -- A2
theorem test_ld_reg : runs 0x8010 (withV 0 0x12 1 0x34) (fun t => readV t 0 == 0x34 && readV t 1 == 0x34) = true := by decide  -- A3
theorem test_or : runs 0x8011 (withV 0 0xF0 1 0x0F) (fun t => readV t 0 == 0xFF && readV t 15 == 0) = true := by decide  -- A4
theorem test_and : runs 0x8012 (withV 0 0xF0 1 0x3C) (fun t => readV t 0 == 0x30) = true := by decide  -- A5
theorem test_xor : runs 0x8013 (withV 0 0xF0 1 0x3C) (fun t => readV t 0 == 0xCC) = true := by decide  -- A6
theorem test_add_carry : runs 0x8014 (withV 0 0xFF 1 1) (fun t => readV t 0 == 0 && readV t 15 == 1) = true := by decide  -- E9
theorem test_add_into_vf : runs 0x8F14 (withV 15 0xFF 1 3) (fun t => readV t 15 == 2) = true := by decide  -- A9
theorem test_sub : runs 0x8015 (withV 0 3 1 5) (fun t => readV t 0 == 0xFE && readV t 15 == 0) &&
    runs 0x8015 (withV 0 5 1 5) (fun t => readV t 0 == 0 && readV t 15 == 0) = true := by decide  -- A11, E9
theorem test_sub_vf : runs 0x8F15 (withV 15 5 1 3) (fun t => readV t 15 == 0xFE) &&
    runs 0x80F5 (withV 0 5 15 3) (fun t => readV t 15 == 1 && readV t 0 == 4) = true := by decide  -- A12, A13
theorem test_shr_ignores_y : runs 0x8016 (withV 0 5 1 0xFF) (fun t => readV t 0 == 2 && readV t 15 == 1) = true := by decide  -- K11
theorem test_shr_vf : runs 0x8F06 (withV 15 3 1 0) (fun t => readV t 15 == 0) = true := by decide  -- A17
theorem test_subn_strict : runs 0x8017 (withV 0 5 1 5) (fun t => readV t 0 == 0 && readV t 15 == 0) = true := by decide  -- A18
theorem test_subn_vf : runs 0x8F17 (withV 15 3 1 5) (fun t => readV t 15 == 4) &&
    runs 0x80F7 (withV 0 3 15 5) (fun t => readV t 15 == 1 && readV t 0 == 0xFE) = true := by decide  -- A19, A20
theorem test_shl : runs 0x800E (withV 0 0x81 1 0) (fun t => readV t 0 == 2 && readV t 15 == 1) = true := by decide  -- A21
theorem test_shl_vf : runs 0x8F0E (withV 15 0x81 1 0) (fun t => readV t 15 == 2) = true := by decide  -- A23
theorem test_rnd_advances : runs 0xC00F (withV 0 0xFF 1 0x22) (fun t => t.pc == 0x202 && readV t 1 == 0x22) = true := by decide
theorem test_ld_i : runs 0xA300 s0 (fun t => t.i == 0x300) = true := by decide  -- X1
theorem test_add_i_no_overflow : runs 0xF01E { withV 0 0x10 15 0x77 with i := 0x100 }
    (fun t => t.i == 0x110 && readV t 15 == 0x77) = true := by decide  -- X2
theorem test_add_i_vf : runs 0xFF1E { withV 15 1 0 0 with i := 0xFFF } (fun t => t.i == 0 && readV t 15 == 1) = true := by
  decide  -- X5
theorem test_ld_font : runs 0xF029 (withV 0 0x0A 1 0) (fun t => t.i == 0x082) &&
    runs 0xF029 (withV 0 0xFF 1 0) (fun t => t.i == 0x54B) = true := by decide  -- X6, X9
theorem test_bcd : runs 0xF133 { withV 1 0xFF 0 0 with i := 0x300 } (fun t =>
    byteAt t 0x300 == 2 && byteAt t 0x301 == 5 && byteAt t 0x302 == 5 && t.i == 0x300) = true := by decide  -- X10
theorem test_bcd_faults : runs 0xF033 { withV 0 123 1 0 with i := 0xFFE }
    (fun t => t.halted == recordAt200 (.memOutOfBounds .write 0x1000)) = true := by decide  -- M3
theorem test_store_regs : runs 0xF255 { writeV 2 3 (withV 0 1 1 2) with i := 0x300, mem := [(0x303, 0xEE)] } (fun t =>
    byteAt t 0x300 == 1 && byteAt t 0x301 == 2 && byteAt t 0x302 == 3 && byteAt t 0x303 == 0xEE && t.i == 0x300) = true := by
  decide  -- X12
theorem test_store_over_font : runs 0xF055 { s0 with i := 0x050 } (fun t => byteAt t 0x050 == 0 && t.halted == none) = true := by
  decide  -- M2
theorem test_load_regs : runs 0xF265 { s0 with i := 0x300, mem := [(0x300, 0xA), (0x301, 0xB), (0x302, 0xC), (0x303, 0xD)] }
    (fun t => readV t 0 == 0xA && readV t 1 == 0xB && readV t 2 == 0xC && readV t 3 == 0 && t.i == 0x300) = true := by
  decide  -- X14
theorem test_load_regs_faults : runs 0xF165 (withI 0xFFF)
    (fun t => t.halted == recordAt200 (.memOutOfBounds .read 0x1000)) = true := by decide  -- M4
theorem test_drw_wraps : runs 0xD011 { withV 0 0x43 1 0x21 with i := 0x300, mem := [(0x300, 0x80)] } (fun t =>
    t.disp == (Vector.replicate 32 0).set 1 8 && readV t 15 == 0) = true := by decide  -- D-5
theorem test_drw_collides : runs 0xD011 { withV 0 0 1 0 with i := 0x301, mem := [(0x301, 0xC0)], disp := (Vector.replicate 32 0).set 0 1 }
    (fun t => t.disp == (Vector.replicate 32 0).set 0 2 && readV t 15 == 1 && t.dirty) = true := by decide  -- D-4
theorem test_ld_from_dt : runs 0xF307 { s0 with dt := 0x3C } (fun t => readV t 3 == 0x3C) = true := by decide  -- T1
theorem test_ld_to_dt : runs 0xF315 (withV 3 7 0 0) (fun t => t.dt == 7 && t.st == 0) = true := by decide  -- T2
theorem test_ld_to_st : runs 0xF318 (withV 3 2 0 0) (fun t => t.st == 2 && !t.soundActive) = true := by decide  -- T3
theorem test_ld_key : runs 0xF30A s0 (fun t => t.wait == some 3 && t.pc == 0x202 && runState t == .waitingForKey) = true := by
  decide  -- T5

/-! ### The cycle and the host operations -/

theorem test_unrecognised : runs 0x8008 s0 (fun t => t.pc == 0x202 && t.lastOpcode == some 0x8008 &&
    t.diagLog == [.unknownOpcode 0x8008 0x200]) = true := by decide  -- K1
theorem test_fetch_fault_low_byte : reaches (step { s0 with pc := 0xFFF })
    (fun t => t.halted == some { fault := .memOutOfBounds .read 0x1000, fetchedAt := 0xFFF }) = true := by decide  -- K9
theorem test_tick_sound : applies .tickTimers { s0 with st := 1 } (fun t => t.st == 0 && t.soundActive) &&
    applies .tickTimers { s0 with soundActive := true } (fun t => t.st == 0 && !t.soundActive) = true := by decide  -- E5
theorem test_key_press_resolves : applies (.setKey 0xC true) { s0 with wait := some 15 }
    (fun t => readV t 15 == 0xC && t.wait == none) = true := by decide  -- T7
theorem test_key_held_does_not_resolve : applies (.setKey 5 true)
    { waiting3 with keys := (Vector.replicate 16 false).set 5 true } (fun t => t.wait == some 3) = true := by decide  -- T6
theorem test_reset_keeps_pause : applies .reset { halted0 with paused := true, keys := Vector.replicate 16 true }
    (fun t => t.paused && t.halted == none && t.keys == Vector.replicate 16 false && t.pc == 0x200) = true := by
  decide  -- H2, H4, H8
theorem test_load_rom : applies (.loadRom [0x60, 0x01]) halted0
    (fun t => t.halted == none && byteAt t 0x200 == 0x60 && byteAt t 0x201 == 0x01 && byteAt t 0x50 == 0xF0) = true := by
  decide  -- H3
theorem test_mark_clean : applies .markClean s0 (fun t => !isDirty t) = true := by decide  -- H5
theorem test_font_ends : byteAt s0 0x050 = 0xF0 ∧ byteAt s0 0x09F = 0x80 ∧ byteAt s0 0x0A0 = 0 := by decide  -- E3

/-! ### A state that meets the hypotheses of each statement that has some, at the boundaries of each clause -/

/-- AssemblerLinesReadBack: an immediate at the limit of each field, and one past it. -/
theorem test_meets_assembler : Mnemonic.RND ∈ [Mnemonic.SE, .SNE, .LD, .ADD, .RND] ∧ Mnemonic.JP ∈ [Mnemonic.JP, .CALL] ∧
    (255 ≤ 255 ∧ ¬ 256 ≤ 255) ∧ (0xFFF ≤ 0xFFF ∧ ¬ 0x1000 ≤ 0xFFF) ∧ ((0 : Reg) = 0 ∧ (1 : Reg) ≠ 0) := by decide

/-- EncodeOfDecodeIsTheWord. -/
theorem test_meets_encode_of_decode : decodeWord 0x00E0 = some .cls := by decide

/-- StepRunsTheDecodedInstruction, at the highest PC that fetches. -/
theorem test_meets_step_runs : ∃ s : State, CycleDue s ∧ s.pc.toNat = 0xFFE ∧ decodeWord (wordAtPc s) = some (.jp 0x20C) :=
  ⟨{ s0 with pc := 0xFFE, mem := [(0xFFE, 0x12), (0xFFF, 0x0C)] }, ⟨rfl, rfl, rfl, rfl⟩, by decide, by decide⟩

/-- GatedCycleChangesNothing: each cause. -/
theorem test_meets_gated : halted0.halted ≠ none ∧ ({ s0 with paused := true } : State).paused = true ∧ waiting3.wait ≠ none := by
  decide

/-- StepAppliesOneOperation: nothing scheduled, and two operations. -/
theorem test_meets_schedules : s0.schedule = [] ∧
    ({ s0 with schedule := [.setPaused true, .cycle] } : State).schedule = .setPaused true :: [.cycle] := by decide

/-- FetchReadsTwoBytesOrHalts: both sides of the boundary, and the two fault addresses. -/
theorem test_meets_fetch : ({ s0 with pc := 0xFFE } : State).pc.toNat ≤ 0xFFE ∧
    (runState { s0 with pc := 0xFFF } = .running ∧ 0xFFF ≤ ({ s0 with pc := 0xFFF } : State).pc.toNat) ∧
    runState { s0 with pc := 0x1000 } = .running ∧ 0xFFF ≤ ({ s0 with pc := 0x1000 } : State).pc.toNat := by decide

/-- UnrecognisedWordIsALoggedNoOp: the reset state itself. -/
theorem test_meets_unrecognised : runState s0 = .running ∧ s0.pc.toNat ≤ 0xFFE ∧ decodeWord (wordAtPc s0) = none := by decide

/-- SelfJumpOnlyRecordsItself. -/
theorem test_meets_self_jump : ∃ s : State, CycleDue s ∧ s.pc.toNat = (0xFFE : Addr).toNat ∧ (0xFFE : Addr).toNat ≤ 0xFFE ∧
    wordAtPc s = packNNN 0x1 0xFFE :=
  ⟨{ s0 with pc := 0xFFE, mem := [(0xFFE, 0x1F), (0xFFF, 0xFE)] }, ⟨rfl, rfl, rfl, rfl⟩, by decide, by decide, by decide⟩

/-- EqualReadsGiveEqualMemory: a listed byte, and the same memory again. -/
theorem test_meets_equal_reads : Memory.wf Config.standard [(0x51, 0)] = true ∧ Memory.wf Config.standard [(0x50, 0xF0)] = false := by
  decide

/-- StoredBytesAreFetchedNext. -/
theorem test_meets_stored_bytes : ∃ s t : State, s.i = s.pc ∧ 1 ≤ (1 : Reg).val ∧ s.i.toNat + (1 : Reg).val < 4096 ∧
    exec (.storeRegs 1) s = .next t :=
  ⟨{ withV 0 0x62 1 0x07 with i := 0xFFE, pc := 0xFFE }, _, rfl, by decide, by decide, rfl⟩

/-- CallPushesTheReturnAddress, RetPopsTheReturnAddress: every clause at its limits. -/
theorem test_meets_stack : s0.sp.val = 0 ∧ ({ s0 with sp := 1 } : State).sp.val = 0 + 1 ∧
    ({ s0 with sp := 15 } : State).sp.val < 16 ∧ ({ s0 with sp := 16 } : State).sp.val = 16 := by decide

/-- CallThenRetReturns: the state the CALL leaves meets both hypotheses. -/
theorem test_meets_call_then_ret : ∃ s t : State, s.sp.val < 16 ∧ exec (.call 0x300) s = .next t ∧ t.sp = t.sp ∧ t.stack = t.stack :=
  ⟨s0, _, by decide, rfl, rfl, rfl⟩

/-- SkipsOnKeys: the last key, and the first byte that names none. -/
theorem test_meets_keys : (readV (withV 1 15 0 0) 1).toNat = (15 : Fin 16).val ∧ 16 ≤ (readV (withV 1 16 0 0) 1).toNat := by decide

/-- SubtractWithStrictFlag and its like: the four cases of x and y against F. -/
theorem test_meets_flag_cases : (14 : Reg) ≠ 15 ∧ (15 : Reg) = 15 ∧ flag (decide ((5 : Byte).toNat > (5 : Byte).toNat)) = 0 := by
  decide

/-- RandomByteUnderTheMask: a bit outside the mask. -/
theorem test_meets_mask : (0x0F : Byte).getLsbD 4 = false := by decide

/-- AddIndexFlagsOverflow: both sides of 0xFFF. -/
theorem test_meets_add_index : (withI 0xFFF).i.toNat + (readV (withI 0xFFF) 0).toNat ≤ 0xFFF ∧
    0xFFF < ({ withV 0 1 1 0 with i := 0xFFF } : State).i.toNat + (readV (withV 0 1 1 0) 0).toNat := by decide

/-- StoreDecimalDigits: both sides of 0xFFD. -/
theorem test_meets_digits : (withI 0xFFD).i.toNat ≤ 0xFFD ∧ 0xFFE ≤ (withI 0xFFE).i.toNat := by decide

/-- StoreRegistersAtI, LoadRegistersFromI: both sides of the end of memory. -/
theorem test_meets_blocks : (withI 0xFF0).i.toNat + (15 : Reg).val < 4096 ∧ 4096 ≤ (withI 0xFF1).i.toNat + (15 : Reg).val := by decide

/-- StoreThenLoadRestoresRegisters. -/
theorem test_meets_store_then_load : ∃ s t u : State, s.i.toNat + (15 : Reg).val < 4096 ∧ exec (.storeRegs 15) s = .next t ∧
    u.mem = t.mem ∧ u.cfg = t.cfg ∧ u.i = t.i :=
  ⟨{ withV 0 1 15 2 with i := 0xFF0 }, _, _, by decide, rfl, rfl, rfl, rfl⟩

/-- ClearZeroesEveryCell, DrawFlipsTheSpriteCells: the last cell, a sprite that ends at the end of memory, one that does not, and no
sprite at all. -/
theorem test_meets_draw : ((63 : Nat) < 64 ∧ (31 : Nat) < 32) ∧ SpriteReadable (withI 0xFFF) 1 ∧ ¬ SpriteReadable (withI 0xFFF) 2 ∧
    SpriteReadable (withI 0xFFFF) 0 := by unfold SpriteReadable; decide

/-- A sprite of one set bit over a clear display. -/
def oneDot : State := { s0 with i := 0x300, mem := [(0x300, 0x80)] }

/-- DrawFlipsTheSpriteCells: a covered cell that held 1, and no covered cell at all. -/
theorem test_meets_draw_collision :
    (∃ px py, SpriteCovers { oneDot with disp := (Vector.replicate 32 0).set 0 1 } 0 1 1 px py ∧
      pixel ((Vector.replicate 32 (0 : BitVec 64)).set 0 1) px py = true) ∧
    ¬ ∃ px py, SpriteCovers oneDot 0 1 0 px py ∧ pixel oneDot.disp px py = true :=
  ⟨⟨0, 0, ⟨0, 0, by decide, by decide, by decide, by decide, by decide⟩, by decide⟩,
    fun ⟨_, _, ⟨_, _, hr, _⟩, _⟩ => absurd hr (Nat.not_lt_zero _)⟩

/-- DrawFlipsTheSpriteCells, FaultLeavesUnrelatedStateAlone: a DRW that faults (95_test_vectors.md M5) under a dirty flag of 1, and a
cell outside its box. -/
theorem test_meets_draw_fault : runs 0xD003 (withI 0xFFE)
      (fun t => t.dirty && t.halted == recordAt200 (.memOutOfBounds .read 0x1000)) = true ∧
    s0.dirty = true ∧ ¬ InSpriteBox (withI 0xFFE) 0 0 3 8 0 := by
  refine ⟨by decide, rfl, fun ⟨r, c, _, hc, hx, _⟩ => ?_⟩
  have hv : (readV (withI 0xFFE) 0).toNat = 0 := by decide
  omega

/-- DrawTwiceRestoresTheDisplay, the clause over covered cells that held 0. -/
theorem test_meets_draw_over_zero : ∀ px py, SpriteCovers oneDot 0 1 1 px py → pixel oneDot.disp px py = false :=
  fun px py _ => pixel_clear px py

/-- DrawTwiceRestoresTheDisplay, SecondDrawCollidesWheneverABitIsSet. -/
theorem test_meets_draw_twice : ∃ s t u : State, SpriteReadable s 1 ∧ exec (.drw 0 1 1) s = .next t ∧ t.i = s.i ∧
    readV t 0 = readV s 0 ∧ readV t 1 = readV s 1 ∧
    (∀ k, k < (1 : Nibble).toNat → byteAt t (s.i.toNat + k) = byteAt s (s.i.toNat + k)) ∧ exec (.drw 0 1 1) t = .next u :=
  ⟨oneDot, _, _, .inr (by decide), rfl, rfl, rfl, rfl, fun _ _ => rfl, rfl⟩

/-- KeyWaitIsEntered. -/
theorem test_meets_key_wait : s0.halted = none ∧ s0.paused = false := by decide

/-- WaitEndsOnlyByANewPress: a press, a reset. -/
theorem test_meets_wait_ends : waiting3.wait = some 3 ∧
    applies (.setKey 7 true) waiting3 (fun t => t.wait != some 3 && readV t 3 == 7) = true ∧
    applies .reset waiting3 (fun t => t.wait != some 3) = true := by decide

/-- OnlyNamedInstructionsWriteEachField: an instruction that changes I; one that changes memory. -/
theorem test_meets_only_named : (∃ t, exec (.ldI 0x300) s0 = .next t ∧ t.i ≠ s0.i) ∧
    ∃ t, exec (.storeRegs 0) { withV 0 1 1 0 with i := 0x300 } = .next t ∧ t.mem ≠ s0.mem :=
  ⟨⟨_, rfl, by decide⟩, _, rfl, by decide⟩

/-- RegistersChangeOnlyAsNamed: each of its three causes. -/
theorem test_meets_registers_change : (∃ t, exec (.ldImm 3 7) s0 = .next t ∧ readV t 3 ≠ readV s0 3) ∧
    (∃ t, exec (.loadRegs 0) (withI 0x50) = .next t ∧ readV t 0 ≠ readV (withI 0x50) 0) ∧
    ∃ t, exec (.shr 0 1) (withV 0 1 1 0) = .next t ∧ readV t 15 ≠ readV (withV 0 1 1 0) 15 :=
  ⟨⟨_, rfl, by decide⟩, ⟨_, rfl, by decide⟩, _, rfl, by decide⟩

/-- FaultsComeOnlyFromTheirCauses: an instruction for each kind. -/
theorem test_meets_fault_causes : reaches (exec .ret s0) (fun t => t.halted.isSome) = true ∧
    reaches (exec (.call 0) { s0 with sp := 16 }) (fun t => t.halted.isSome) = true ∧
    reaches (exec (.drw 0 0 2) (withI 0xFFF)) (fun t => t.halted.isSome) = true ∧
    reaches (exec (.ldBcd 0) (withI 0xFFE)) (fun t => t.halted.isSome) = true := by decide

/-- FaultLeavesUnrelatedStateAlone: a RET on the empty stack. -/
theorem test_meets_fault_step : ∃ s t : State, CycleDue s ∧ step s = .next t ∧ t.halted = recordAt200 (.stackUnderflow 0) :=
  ⟨s0.withFetchWord 16 0x00EE, _, ⟨rfl, rfl, rfl, rfl⟩, rfl, by decide⟩

/-- HaltedUntilResetOrLoad: a scheduled reset, a load, another operation, none. -/
theorem test_meets_halted : halted0.halted = recordAt200 (.stackUnderflow 0) ∧ halted0.schedule = [] ∧
    applies .reset halted0 (fun t => t.halted == none) = true ∧ applies (.loadRom []) halted0 (fun t => t.halted == none) = true ∧
    applies .tickTimers halted0 (fun t => t.halted == halted0.halted) = true := by decide

/-- SetKeyRecordsAndResolves: both sides of the last code, a press that resolves a wait, and a state without a wait. -/
theorem test_meets_set_key : 16 ≤ (16 : Nat) ∧ (15 : Nat) = (15 : Fin 16).val ∧
    (true = true ∧ waiting3.keys[(15 : Fin 16).val] = false ∧ waiting3.wait = some 3) ∧
    (true = false ∨ s0.keys[(15 : Fin 16).val] = true ∨ s0.wait = none) := by decide

/-- PausingCancelsNothing: a block that waits. -/
theorem test_meets_pausing : waiting3.halted = none ∧ waiting3.paused = false := by decide

/-- LoadRomCopiesAfterAReset: the longest ROM that fits, and the shortest that does not. -/
theorem test_meets_load_rom : (List.replicate 3584 (0 : Byte)).length ≤ 3584 ∧ 3584 < (List.replicate 3585 (0 : Byte)).length := by
  simp only [List.length_replicate]; decide

/-- ResetGivesEveryFieldItsValue: the first and last byte of the font, and the bytes beside it. -/
theorem test_meets_reset_memory : (s0.cfg.fontBase.val ≤ 0x50 ∧ 0x50 - s0.cfg.fontBase.val < 80) ∧ 0x9F - s0.cfg.fontBase.val < 80 ∧
    0x4F < s0.cfg.fontBase.val ∧ s0.cfg.fontBase.val + 80 ≤ 0xA0 := by decide

/-- EveryStepKeepsTheInvariant: a state inside a subroutine. -/
theorem test_meets_invariant : ∃ s t : State, Inv s ∧ s.sp.val = 1 ∧ step s = .next t :=
  ⟨{ s0 with sp := 1, stack := Vector.replicate 16 0x1000, pc := 0x300, mem := [(0x300, 0xEE)] }, _,
    ⟨by decide, by decide, by decide, by decide, fun k h _ => by simp⟩, by decide, rfl⟩

end Sys2Proof.Tests
end

section
/-! The memory primitives of 20_memory.md R51 to R53: read after write, and the frame of a write. -/

namespace Sys2Proof.Proofs

open Sys2Proof Sys2Proof.Machine

variable {a c : Nat} {b : Byte} {s : State}

theorem byteAt_setByte_other (h : c ≠ a) : byteAt (setByte a b s) c = byteAt s c := by
  rw [byteAt_setByte, if_neg h]

theorem memRead_setByte_self (h : a < 4096) : memRead a (setByte a b s) = .ok b := by
  rw [memRead_of_lt h, byteAt_setByte, if_pos rfl]

/-- Settles O13: a write inside memory answers `setByte`, which a read at the address sees and every other cell and field does not;
outside memory both primitives fault. -/
theorem memoryPrimitivesReadWhatWasWritten : Obligations.MemoryPrimitivesReadWhatWasWritten := by
  intro a b s
  constructor
  · intro inside
    have frame : setByte a b s = { s with mem := (setByte a b s).mem } := rfl
    exact ⟨memRead_of_lt inside, setByte a b s, memWrite_of_lt inside, memRead_setByte_self inside, frame,
      fun _ hne => byteAt_setByte_other hne⟩
  · intro outside
    exact ⟨memRead_of_ge outside, memWrite_of_ge outside⟩

end Sys2Proof.Proofs
end

section
/-! cycle() behind its gate and over an unrecognised word (40_cycle.md R100, R107, R108). -/

namespace Sys2Proof.Proofs

open Sys2Proof Sys2Proof.Machine

variable {s : State} {w : Word}

theorem gated_eq_true : gated s = true ↔ s.halted ≠ none ∨ s.paused = true ∨ s.wait ≠ none := by
  simp [gated, Option.isSome_iff_ne_none, or_assoc]

/-- Running is the one interpreter state that passes the gate of R100. -/
theorem runState_eq_running : runState s = .running ↔ gated s = false := by
  unfold runState
  split
  case isTrue halted => simp [gated, halted]
  case isFalse alive =>
    split
    case isTrue paused => simp [gated, paused]
    case isFalse unpaused => cases waiting : s.wait <;> simp [gated, alive, unpaused, waiting]

/-- A cycle() that passes the gate and fetches runs the word at PC with PC advanced, and then records it. -/
theorem cycle_of_fetch (notGated : gated s = false) (inside : s.pc.toNat ≤ 0xFFE) :
    cycle s = afterExec (wordAtPc s) (runWord (wordAtPc s) s.pc (writePc (s.pc + 2) s)) := by
  simp [cycle, notGated, fetch_ok inside, wordAtPc]

theorem runWord_of_unrecognised {addr : Word} (unknown : decodeWord w = none) :
    runWord w addr s = .next (logEvent (.unknownOpcode w addr) s) := by
  simp only [runWord, unknown, execUnrecognised]

theorem afterExec_of_not_halted (alive : s.halted = none) : afterExec w (.next s) = .next (recordOpcode w s) := by
  simp [afterExec, alive]

/-- The whole next state: R107's log entry, with R106's record. -/
theorem cycle_of_unrecognised (notGated : gated s = false) (inside : s.pc.toNat ≤ 0xFFE)
    (unknown : decodeWord (wordAtPc s) = none) :
    cycle s =
      .next (recordOpcode (wordAtPc s) (logEvent (.unknownOpcode (wordAtPc s) s.pc) (writePc (s.pc + 2) s))) := by
  obtain ⟨alive, -, -⟩ := gated_eq_false.1 notGated
  rw [cycle_of_fetch notGated inside, runWord_of_unrecognised unknown]
  exact afterExec_of_not_halted alive

theorem pc_add_two_toNat (inside : s.pc.toNat ≤ 0xFFE) : (s.pc + 2).toNat = s.pc.toNat + 2 := by
  bv_omega

/-- Settles O7: each of the three causes closes the gate. -/
theorem gatedCycleChangesNothing : Obligations.GatedCycleChangesNothing :=
  fun _ cause => cycle_gated (gated_eq_true.2 cause)

/-- Settles O10: the next state is the old one with PC advanced, the event logged and the word recorded, none of which the
interpreter state reads. -/
theorem unrecognisedWordIsALoggedNoOp : Obligations.UnrecognisedWordIsALoggedNoOp := by
  intro s running inside unknown
  have nextState := cycle_of_unrecognised (runState_eq_running.1 running) inside unknown
  exact ⟨_, nextState, pc_add_two_toNat inside, rfl, rfl, running, rfl⟩

end Sys2Proof.Proofs
end

section
/-! The jump of 41_flow.md R121: its word decodes to it, and PC is all it writes. -/

namespace Sys2Proof.Proofs

open Sys2Proof Sys2Proof.Machine

theorem decodeWord_packNNN_jp (nnn : Addr) : decodeWord (packNNN 0x1 nnn) = some (.jp nnn) := by
  simp [decodeWord]

/-- R121's zext_16 keeps the address as a number. -/
@[simp] theorem addrWord_toNat (nnn : Addr) : (addrWord nnn).toNat = nnn.toNat :=
  BitVec.toNat_setWidth_of_le (by decide)

theorem exec_jp (nnn : Addr) (s : State) : exec (.jp nnn) s = .next (writePc (addrWord nnn) s) := rfl

/-- The frame of a PC write: every other field is the old one. -/
theorem writePc_frame (w : Word) (s : State) : writePc w s = { s with pc := (writePc w s).pc } := rfl

/-- Settles O16: JP's next state is `writePc` of the zero-extended address, whose frame is every field but PC. -/
theorem jumpSetsThePc : Obligations.JumpSetsThePc := by
  intro nnn s
  have target : (writePc (addrWord nnn) s).pc.toNat = nnn.toNat := by
    rw [writePc_pc, addrWord_toNat]
  exact ⟨decodeWord_packNNN_jp nnn, _, exec_jp nnn s, target, writePc_frame _ s⟩

end Sys2Proof.Proofs
end

section
/-! The register skips of 42_skip.md R131 to R134: their words decode to them, and their next state is the one `skipIf` gives. -/

namespace Sys2Proof.Proofs

open Sys2Proof Sys2Proof.Machine

variable (x y : Reg) (nn a b : Byte) (s : State)

/-! ### Decoding -/

theorem decodeWord_packXNN_seImm : decodeWord (packXNN 0x3 x nn) = some (.seImm x nn) := by
  simp [decodeWord]

theorem decodeWord_packXNN_sneImm : decodeWord (packXNN 0x4 x nn) = some (.sneImm x nn) := by
  simp [decodeWord]

theorem decodeWord_packXYN_seReg : decodeWord (packXYN 0x5 x y 0) = some (.seReg x y) := by
  simp [decodeWord]

theorem decodeWord_packXYN_sneReg : decodeWord (packXYN 0x9 x y 0) = some (.sneReg x y) := by
  simp [decodeWord]

/-! ### Execution -/

theorem exec_seImm : exec (.seImm x nn) s = .next (skipIf (readV s x == nn) s) := rfl

theorem exec_sneImm : exec (.sneImm x nn) s = .next (skipIf (readV s x != nn) s) := rfl

theorem exec_seReg : exec (.seReg x y) s = .next (skipIf (readV s x == readV s y) s) := rfl

theorem exec_sneReg : exec (.sneReg x y) s = .next (skipIf (readV s x != readV s y) s) := rfl

/-! ### The PC of a skip on a comparison -/

theorem skipIf_beq_pc : (skipIf (a == b) s).pc = if a = b then s.pc + 2 else s.pc := by
  simp only [skipIf_pc, beq_iff_eq]

theorem skipIf_bne_pc : (skipIf (a != b) s).pc = if a = b then s.pc else s.pc + 2 := by
  simp only [skipIf_pc, bne_iff_ne, ne_eq, ite_not]

/-- Settles O21: each of the four is a `skipIf` on its comparison of bytes, which moves PC where the comparison holds and keeps
every other field. -/
theorem skipsOnRegisters : Obligations.SkipsOnRegisters := by
  intro x y nn s
  refine ⟨?seImm, ?sneImm, ?seReg, ?sneReg⟩
  case seImm =>
    exact ⟨decodeWord_packXNN_seImm x nn, _, exec_seImm x nn s, skipIf_beq_pc _ _ s, skipIf_frame _ s⟩
  case sneImm =>
    exact ⟨decodeWord_packXNN_sneImm x nn, _, exec_sneImm x nn s, skipIf_bne_pc _ _ s, skipIf_frame _ s⟩
  case seReg =>
    exact ⟨decodeWord_packXYN_seReg x y, _, exec_seReg x y s, skipIf_beq_pc _ _ s, skipIf_frame _ s⟩
  case sneReg =>
    exact ⟨decodeWord_packXYN_sneReg x y, _, exec_sneReg x y s, skipIf_bne_pc _ _ s, skipIf_frame _ s⟩

end Sys2Proof.Proofs
end

section
/-! The register loads, the bitwise operations and the two additions of 43_alu.md R141 to R147: their words decode to them, and
their next state is a register write, after the carry's where they report one. -/

namespace Sys2Proof.Proofs

open Sys2Proof Sys2Proof.Machine

variable (x y : Reg) (nn a b : Byte) (s : State)

/-! ### Decoding -/

theorem decodeWord_packXNN_ldImm : decodeWord (packXNN 0x6 x nn) = some (.ldImm x nn) := by
  simp [decodeWord]

theorem decodeWord_packXNN_addImm : decodeWord (packXNN 0x7 x nn) = some (.addImm x nn) := by
  simp [decodeWord]

/-- In group 0x8 the last nibble alone selects (30_encoding.md R85, R87). -/
theorem decodeWord_packXYN_group8 (n : Nibble) : decodeWord (packXYN 0x8 x y n) = decodeGroup8 x y n.toNat := by
  simp [decodeWord]

/-! ### Execution -/

theorem exec_ldImm : exec (.ldImm x nn) s = .next (writeV x nn s) := rfl

theorem exec_addImm : exec (.addImm x nn) s = .next (writeV x (readV s x + nn) s) := rfl

theorem exec_ldReg : exec (.ldReg x y) s = .next (writeV x (readV s y) s) := rfl

theorem exec_orReg : exec (.orReg x y) s = .next (writeV x (readV s x ||| readV s y) s) := rfl

theorem exec_andReg : exec (.andReg x y) s = .next (writeV x (readV s x &&& readV s y) s) := rfl

theorem exec_xorReg : exec (.xorReg x y) s = .next (writeV x (readV s x ^^^ readV s y) s) := rfl

theorem exec_addReg : exec (.addReg x y) s =
    .next (writeV x (readV s x + readV s y) (writeV VF (carryOut (readV s x) (readV s y)) s)) := rfl

/-! ### What the written registers read -/

theorem readV_writeV_same : readV (writeV x b s) x = b := by
  rw [readV_writeV, if_pos rfl]

/-- A flag written before a result survives it, unless the result goes to VF itself. -/
theorem readV_flag_writeV (hx : x ≠ 15) : readV (writeV x b (writeV VF a s)) 15 = a := by
  rw [readV_writeV, if_neg hx.symm, readV_writeV_same]

theorem carryOut_toNat : (carryOut a b).toNat = if a.toNat + b.toNat > 255 then 1 else 0 := by
  simp only [carryOut, flag_toNat, decide_eq_true_eq]

/-- An instruction whose next state is one register write completes, and writes that register only. -/
theorem completes_of_exec_eq_writeV {i : Instr} {x : Reg} {b : Byte} {s : State} (h : exec i s = .next (writeV x b s)) :
    ∃ t, exec i s = .next t ∧ readV t x = b ∧ OnlyRegs (· = x) s t :=
  ⟨_, h, readV_writeV_same x b s, onlyRegs_writeV x b s⟩

/-! ### The statements -/

/-- Settles O23: both are one register write, of nn and of the sum in 8 bits. -/
theorem loadAndAddImmediate : Obligations.LoadAndAddImmediate := by
  intro x nn s
  refine ⟨⟨decodeWord_packXNN_ldImm x nn, ?ld⟩, ⟨decodeWord_packXNN_addImm x nn, ?add⟩⟩
  case ld => exact completes_of_exec_eq_writeV (exec_ldImm x nn s)
  case add =>
    obtain ⟨t, ht, sum, frame⟩ := completes_of_exec_eq_writeV (exec_addImm x nn s)
    exact ⟨t, ht, by rw [sum, BitVec.toNat_add], frame⟩

/-- Settles O24: each of the four is one register write. -/
theorem copyAndLogic : Obligations.CopyAndLogic := by
  intro x y s
  refine ⟨⟨decodeWord_packXYN_group8 x y 0x0, ?ld⟩, ⟨decodeWord_packXYN_group8 x y 0x1, ?or⟩,
    ⟨decodeWord_packXYN_group8 x y 0x2, ?and⟩, ⟨decodeWord_packXYN_group8 x y 0x3, ?xor⟩⟩
  case ld => exact completes_of_exec_eq_writeV (exec_ldReg x y s)
  case or => exact completes_of_exec_eq_writeV (exec_orReg x y s)
  case and => exact completes_of_exec_eq_writeV (exec_andReg x y s)
  case xor => exact completes_of_exec_eq_writeV (exec_xorReg x y s)

/-- Settles O25: the sum, bound before VF is written, is written over the carry, which is lost where the sum goes to VF. -/
theorem addReportsTheCarry : Obligations.AddReportsTheCarry := by
  intro x y s
  refine ⟨decodeWord_packXYN_group8 x y 0x4, _, exec_addReg x y s, ?sum, ?carry, onlyRegs_writeV_flag x _ _ s⟩
  case sum => rw [readV_writeV_same, BitVec.toNat_add]
  case carry =>
    intro hx
    rw [readV_flag_writeV _ _ _ _ hx, carryOut_toNat]

end Sys2Proof.Proofs
end

section
/-! The load of I of 44_index_memory.md R160: its word decodes to it, and I is all it writes. -/

namespace Sys2Proof.Proofs

open Sys2Proof Sys2Proof.Machine

theorem decodeWord_packNNN_ldI (nnn : Addr) : decodeWord (packNNN 0xA nnn) = some (.ldI nnn) := by
  simp [decodeWord]

theorem exec_ldI (nnn : Addr) (s : State) : exec (.ldI nnn) s = .next (writeI (addrWord nnn) s) := rfl

/-- The frame of a write to I: every other field is the old one. -/
theorem writeI_frame (w : Word) (s : State) : writeI w s = { s with i := (writeI w s).i } := rfl

/-- Settles O30: LD I's next state is `writeI` of the zero-extended address, whose frame is every field but I. -/
theorem loadIndexWritesI : Obligations.LoadIndexWritesI := by
  intro nnn s
  have index : (writeI (addrWord nnn) s).i.toNat = nnn.toNat := by
    rw [writeI_i, addrWord_toNat]
  exact ⟨decodeWord_packNNN_ldI nnn, _, exec_ldI nnn s, index, writeI_frame _ s⟩

end Sys2Proof.Proofs
end

section
/-! CLS of 45_display.md R174: its one word decodes to it, and the cleared display with its dirty flag is all it writes. -/

namespace Sys2Proof.Proofs

open Sys2Proof Sys2Proof.Machine

theorem decodeWord_cls : decodeWord 0x00E0 = some .cls := rfl

theorem exec_cls (s : State) : exec .cls s = .next (writeDisp (Vector.replicate 32 0) s) := rfl

/-- The frame of a display write: every field but the display and its dirty flag is the old one. -/
theorem writeDisp_frame (d : Vector (BitVec 64) 32) (s : State) :
    writeDisp d s = { s with disp := (writeDisp d s).disp, dirty := (writeDisp d s).dirty } := rfl

/-- Settles O37: CLS's next state is `writeDisp` of the display whose rows are all 0, which sets dirty whatever it was. -/
theorem clearZeroesEveryCell : Obligations.ClearZeroesEveryCell := by
  intro s
  have cleared (px py : Nat) : pixel (writeDisp (Vector.replicate 32 0) s).disp px py = false := by
    rw [writeDisp_disp, pixel_clear]
  exact ⟨decodeWord_cls, _, exec_cls s, fun px py _ _ => cleared px py, writeDisp_dirty _ s, writeDisp_frame _ s⟩

end Sys2Proof.Proofs
end

section
/-! The delay timer transfers and the key wait of 46_timer_key.md R180, R181 and R183: their words decode to them, and their next
state is one write, of a register, of DT or of the wait latch. -/

namespace Sys2Proof.Proofs

open Sys2Proof Sys2Proof.Machine

variable (x : Reg) (b : Byte) (s : State)

/-! ### Decoding and execution -/

/-- In group 0xF the last byte alone selects (30_encoding.md R85, R87). -/
theorem decodeWord_packXNN_groupF : decodeWord (packXNN 0xF x b) = decodeGroupF x b.toNat := by
  simp [decodeWord]

theorem exec_ldFromDt : exec (.ldFromDt x) s = .next (writeV x s.dt s) := rfl

theorem exec_ldToDt : exec (.ldToDt x) s = .next (writeDt (readV s x) s) := rfl

theorem exec_ldKey : exec (.ldKey x) s = .next (writeWait (some x) s) := rfl

/-! ### What the two writes leave unchanged -/

/-- The frame of a write to DT: every other field is the old one. -/
theorem writeDt_frame : writeDt b s = { s with dt := (writeDt b s).dt } := rfl

/-- The frame of a write to the wait latch: every other field is the old one. -/
theorem writeWait_frame (latch : Option Reg) : writeWait latch s = { s with wait := (writeWait latch s).wait } := rfl

/-- A pending wait is the run state where neither a fault nor a pause comes before it (10_state.md R37). -/
theorem runState_eq_waitingForKey {s : State} {x : Reg} (alive : s.halted = none) (unpaused : s.paused = false)
    (pending : s.wait = some x) : runState s = .waitingForKey := by
  simp [runState, alive, unpaused, pending]

/-! ### The statements -/

/-- Settles O41: the read of DT is one register write, and the write of DT leaves every other field. -/
theorem delayTimerTransfers : Obligations.DelayTimerTransfers := by
  intro x s
  refine ⟨⟨decodeWord_packXNN_groupF x 0x07, ?read⟩, ⟨decodeWord_packXNN_groupF x 0x15, ?write⟩⟩
  case read => exact completes_of_exec_eq_writeV (exec_ldFromDt x s)
  case write => exact ⟨_, exec_ldToDt x s, writeDt_dt _ s, writeDt_frame _ s⟩

/-- Settles O43: the wait latch is all that is written, and a latch with a target is the run state WaitingForKey. -/
theorem keyWaitIsEntered : Obligations.KeyWaitIsEntered := by
  intro x s
  refine ⟨decodeWord_packXNN_groupF x 0x0A, _, exec_ldKey x s, writeWait_wait _ s, writeWait_frame s _, ?waits⟩
  case waits =>
    intro alive unpaused
    exact runState_eq_waitingForKey ((writeWait_halted _ s).trans alive) ((writeWait_paused _ s).trans unpaused)
      (writeWait_wait _ s)

end Sys2Proof.Proofs
end

section
/-! is_dirty() and mark_clean() of 60_exceptions.md R217: the readout is the flag, and the operation writes only the flag. -/

namespace Sys2Proof.Proofs

open Sys2Proof Sys2Proof.Machine

variable (s : State)

theorem isDirty_eq_dirty : isDirty s = s.dirty := rfl

theorem applyOp_markClean : applyOp .markClean s = .next (markClean s) := rfl

@[simp] theorem markClean_dirty : (markClean s).dirty = false := rfl

/-- The frame of mark_clean(): every field but the dirty flag is the old one, the display among them. -/
theorem markClean_frame : markClean s = { s with dirty := (markClean s).dirty } := rfl

/-- Settles O52: mark_clean()'s next state is `markClean`, whose frame keeps every field but the flag it clears. -/
theorem markCleanClearsDirty : Obligations.MarkCleanClearsDirty := by
  intro s
  exact ⟨isDirty_eq_dirty s, markClean s, applyOp_markClean s, markClean_dirty s, markClean_frame s⟩

end Sys2Proof.Proofs
end

section
/-! The encoder and the decoder of 30_encoding.md R80 to R93: each undoes the other, and which words are recognised. -/

namespace Sys2Proof.Proofs

open Sys2Proof Sys2Proof.Machine

variable {w : Word} {i : Instr} {x y : Reg}

/-! ### Decoding an encoded instruction -/

/-- In group 0xE the last byte alone selects (30_encoding.md R85, R87). -/
theorem decodeWord_packXNN_groupE (x : Reg) (b : Byte) : decodeWord (packXNN 0xE x b) = decodeGroupE x b.toNat := by
  simp [decodeWord]

/-- The decoder undoes the encoder: in a selecting group the selector picks the instruction, and elsewhere its group does. -/
theorem decodeWord_encode (i : Instr) : decodeWord (encode i) = some i := by
  cases i
  case cls | ret => rfl
  case ldReg x y | orReg x y | andReg x y | xorReg x y | addReg x y | sub x y | shr x y | subn x y | shl x y =>
    exact decodeWord_packXYN_group8 x y _
  case skp x | sknp x => exact decodeWord_packXNN_groupE x _
  case ldFromDt x | ldKey x | ldToDt x | ldToSt x | addI x | ldFont x | ldBcd x | storeRegs x | loadRegs x =>
    exact decodeWord_packXNN_groupF x _
  all_goals simp [encode, decodeWord]

/-- The bytes of a word are read back as that word, whatever follows them. -/
theorem decode_bytesOfWord (rest : List Byte) (h : decodeWord w = some i) :
    decode (bytesOfWord w ++ rest) = .ok (i, rest) := by
  simp only [bytesOfWord, List.cons_append, List.nil_append, decode, wordOfBytes_bytes, h]

/-- Settles O1: the word decodes by its group, and the bytes decode as the word. -/
theorem decodeOfEncodeIsTheInstruction : Obligations.DecodeOfEncodeIsTheInstruction :=
  fun i rest => ⟨decodeWord_encode i, decode_bytesOfWord rest (decodeWord_encode i)⟩

/-! ### Encoding a decoded word -/

theorem packNNN_fields {op : Nibble} (h : fieldOp w = op.toNat) : packNNN op (fieldNNN w) = w := by
  apply BitVec.eq_of_toNat_eq
  rw [fieldOp_eq] at h
  rw [packNNN_toNat, fieldNNN_toNat]; omega

theorem packXNN_fields {op : Nibble} (h : fieldOp w = op.toNat) : packXNN op (fieldX w) (fieldNN w) = w := by
  apply BitVec.eq_of_toNat_eq
  rw [fieldOp_eq] at h
  rw [packXNN_toNat, fieldX_val, fieldNN_toNat]; omega

theorem packXYN_fields {op : Nibble} (h : fieldOp w = op.toNat) : packXYN op (fieldX w) (fieldY w) (fieldN w) = w := by
  apply BitVec.eq_of_toNat_eq
  rw [fieldOp_eq] at h
  rw [packXYN_toNat, fieldX_val, fieldY_val, fieldN_toNat]; omega

theorem encode_of_decodeGroup0 (h : decodeGroup0 w = some i) : encode i = w := by
  unfold decodeGroup0 at h
  split at h
  case isTrue hw => cases h; exact hw.symm
  case isFalse =>
    split at h
    case isTrue hw => cases h; exact hw.symm
    case isFalse => cases h

theorem encode_of_decodeGroup8 {n : Nibble} (h : decodeGroup8 x y n.toNat = some i) : encode i = packXYN 0x8 x y n := by
  unfold decodeGroup8 at h
  split at h
  case h_10 => cases h
  all_goals
    next hn =>
    cases h
    exact congrArg (packXYN 0x8 x y) (BitVec.eq_of_toNat_eq hn.symm)

theorem encode_of_decodeGroupE {nn : Byte} (h : decodeGroupE x nn.toNat = some i) : encode i = packXNN 0xE x nn := by
  unfold decodeGroupE at h
  split at h
  case h_3 => cases h
  all_goals
    next hn =>
    cases h
    exact congrArg (packXNN 0xE x) (BitVec.eq_of_toNat_eq hn.symm)

theorem encode_of_decodeGroupF {nn : Byte} (h : decodeGroupF x nn.toNat = some i) : encode i = packXNN 0xF x nn := by
  unfold decodeGroupF at h
  split at h
  case h_10 => cases h
  all_goals
    next hn =>
    cases h
    exact congrArg (packXNN 0xF x) (BitVec.eq_of_toNat_eq hn.symm)

/-- Settles O2: the fields of a word, laid out again under its op nibble, are the word. -/
theorem encodeOfDecodeIsTheWord : Obligations.EncodeOfDecodeIsTheWord := by
  intro w i h
  unfold decodeWord at h
  split at h
  case h_1 => exact encode_of_decodeGroup0 h
  case h_2 op | h_3 op | h_11 op | h_12 op => cases h; exact packNNN_fields op
  case h_4 op | h_5 op | h_7 op | h_8 op | h_13 op => cases h; exact packXNN_fields op
  case h_6 op | h_10 op =>
    split at h
    case isTrue hn => cases h; rw [encode, ← hn]; exact packXYN_fields op
    case isFalse => cases h
  case h_9 op => exact (encode_of_decodeGroup8 h).trans (packXYN_fields op)
  case h_14 op => cases h; exact packXYN_fields op
  case h_15 op => exact (encode_of_decodeGroupE h).trans (packXNN_fields op)
  case h_16 op => exact (encode_of_decodeGroupF h).trans (packXNN_fields op)
  case h_17 => cases h

/-! ### Recognised words -/

theorem decodeGroup0_isSome : (decodeGroup0 w).isSome = true ↔ w.toNat = 0x00E0 ∨ w.toNat = 0x00EE := by
  unfold decodeGroup0
  split
  case isTrue hw => simp [hw]
  case isFalse hw =>
    split
    case isTrue hw => simp [hw]
    case isFalse hw' =>
      have h0 : w.toNat ≠ 0x00E0 := fun e => hw (BitVec.eq_of_toNat_eq e)
      have h1 : w.toNat ≠ 0x00EE := fun e => hw' (BitVec.eq_of_toNat_eq e)
      simp [h0, h1]

theorem decodeGroup8_isSome (n : Nat) : (decodeGroup8 x y n).isSome = true ↔ n ∈ [0, 1, 2, 3, 4, 5, 6, 7, 0xE] := by
  unfold decodeGroup8
  split <;> simp_all

theorem decodeGroupE_isSome (nn : Nat) : (decodeGroupE x nn).isSome = true ↔ nn ∈ [0x9E, 0xA1] := by
  unfold decodeGroupE
  split <;> simp_all

theorem decodeGroupF_isSome (nn : Nat) : (decodeGroupF x nn).isSome = true ↔
    nn ∈ [0x07, 0x0A, 0x15, 0x18, 0x1E, 0x29, 0x33, 0x55, 0x65] := by
  unfold decodeGroupF
  split <;> simp_all

theorem fieldN_eq_zero : fieldN w = 0 ↔ w.toNat % 16 = 0 := by
  rw [← fieldN_toNat, BitVec.toNat_eq]; rfl

/-- Settles O3: the op nibble picks the group, whose selector is the whole word, the last nibble or the last byte. -/
theorem recognisedWordsAreTheTables : Obligations.RecognisedWordsAreTheTables := by
  intro w
  unfold decodeWord
  split
  case h_17 =>
    have := w.isLt
    simp only [fieldOp_eq, imp_false] at *
    omega
  all_goals
    rename_i op
    rw [fieldOp_eq] at op
  case h_1 => rw [decodeGroup0_isSome]; simp [op]
  case h_9 => rw [decodeGroup8_isSome, fieldN_toNat]; simp [op]; omega
  case h_15 => rw [decodeGroupE_isSome, fieldNN_toNat]; simp [op]; omega
  case h_16 => rw [decodeGroupF_isSome, fieldNN_toNat]; simp [op]; omega
  case h_6 | h_10 =>
    simp only [fieldN_eq_zero]
    split
    case isTrue hn => simp [op, hn]
    case isFalse hn => simp [op, hn]; omega
  all_goals simp [op]

/-- Settles O4: each word is the encoder's for its instruction, and the last one names no row of group 0x8. -/
theorem wordsOfEveryFamilyDecode : Obligations.WordsOfEveryFamilyDecode :=
  ⟨decodeWord_encode .cls, decodeWord_encode .ret, decodeWord_encode (.jp 0x20C), decodeWord_encode (.seImm 3 0x05),
    decodeWord_encode (.seReg 1 2), decodeWord_encode (.addReg 0 1), decodeWord_encode (.ldI 0x300),
    decodeWord_encode (.drw 1 2 5), decodeWord_encode (.skp 2), decodeWord_encode (.ldToDt 3),
    decodeWord_encode (.loadRegs 2), decodeWord_packXYN_group8 0 0 0x8⟩

end Sys2Proof.Proofs
end

section
/-! The assembler lines of 30_encoding.md R91 and R92: an immediate assembles exactly where it fits its field, and the line written
for an instruction reads back as it. -/

namespace Sys2Proof.Proofs

open Sys2Proof Sys2Proof.Machine

/-! ### Immediates -/

@[simp] theorem fitByte_toNat (b : Byte) : fitByte b.toNat = some b := by
  rw [fitByte, if_pos b.isLt, BitVec.ofNat_toNat, BitVec.setWidth_eq]

@[simp] theorem fitAddr_toNat (a : Addr) : fitAddr a.toNat = some a := by
  rw [fitAddr, if_pos a.isLt, BitVec.ofNat_toNat, BitVec.setWidth_eq]

@[simp] theorem fitNibble_toNat (n : Nibble) : fitNibble n.toNat = some n := by
  rw [fitNibble, if_pos n.isLt, BitVec.ofNat_toNat, BitVec.setWidth_eq]

theorem isSome_ite_lt_succ {α : Type} (a : α) (k n : Nat) : (if k < n + 1 then some a else none).isSome = decide (k ≤ n) := by
  split
  case isTrue fits => exact (decide_eq_true (Nat.le_of_lt_succ fits)).symm
  case isFalse past => exact (decide_eq_false fun h => past (Nat.lt_succ_of_le h)).symm

theorem fitByte_isSome (k : Nat) : (fitByte k).isSome = decide (k ≤ 255) := isSome_ite_lt_succ _ k 255

theorem fitAddr_isSome (k : Nat) : (fitAddr k).isSome = decide (k ≤ 0xFFF) := isSome_ite_lt_succ _ k 0xFFF

theorem fitNibble_isSome (k : Nat) : (fitNibble k).isSome = decide (k ≤ 15) := isSome_ite_lt_succ _ k 15

/-! ### Lines -/

/-- The line written for an instruction stands for it: the operand kinds select the instruction, and its immediate fits. -/
theorem assemble_disassemble (i : Instr) : assemble (disassemble i) = some i := by
  cases i <;> simp [disassemble, assemble]

/-- A line whose instruction is an immediate's, if the immediate fits, is well formed exactly then. -/
theorem wellFormed_of_assemble_map {α : Type} {l : Line} {fit : Option α} {make : α → Instr}
    (h : assemble l = fit.map make) : l.wellFormed = fit.isSome := by
  rw [Line.wellFormed, h, Option.isSome_map]

theorem wellFormed_jp_reg (x : Reg) (k : Nat) :
    Line.wellFormed ⟨.JP, [.reg x, .num k]⟩ = decide (x = 0 ∧ k ≤ 0xFFF) := by
  by_cases hx : x = 0
  · have h : assemble ⟨.JP, [.reg x, .num k]⟩ = (fitAddr k).map .jpV0 := if_pos hx
    rw [wellFormed_of_assemble_map h, fitAddr_isSome]; simp [hx]
  · have h : assemble ⟨.JP, [.reg x, .num k]⟩ = none := if_neg hx
    simp [Line.wellFormed, h, hx]

/-- Settles O5: a line with an immediate is well formed exactly where its field's `fit` takes the number. -/
theorem assemblerLinesReadBack : Obligations.AssemblerLinesReadBack := by
  refine ⟨assemble_disassemble, ?byte, ?addr, ?index, wellFormed_jp_reg, ?nibble⟩
  case byte =>
    intro m x k hm
    simp only [List.mem_cons, List.not_mem_nil, or_false] at hm
    rw [← fitByte_isSome]
    rcases hm with rfl | rfl | rfl | rfl | rfl
    all_goals exact wellFormed_of_assemble_map rfl
  case addr =>
    intro m k hm
    simp only [List.mem_cons, List.not_mem_nil, or_false] at hm
    rw [← fitAddr_isSome]
    rcases hm with rfl | rfl
    all_goals exact wellFormed_of_assemble_map rfl
  case index =>
    intro k
    rw [← fitAddr_isSome]
    exact wellFormed_of_assemble_map rfl
  case nibble =>
    intro x y k
    rw [← fitNibble_isSome]
    exact wellFormed_of_assemble_map rfl

end Sys2Proof.Proofs
end

section
/-! The entry into Halted-on-error of 60_exceptions.md R204: the record it makes, and the frame of a fault over a state whose targets
are freed. -/

namespace Sys2Proof.Proofs

open Sys2Proof Sys2Proof.Machine

variable (f : Fault) (s : State)

theorem recordsFault_raiseExec : RecordsFault f (raiseExec f s) := rfl

@[simp] theorem readV_raiseExec (k : Reg) : readV (raiseExec f s) k = readV s k := rfl

/-- The first address outside memory of an access that begins at `a`. -/
theorem max_memSize (a : Nat) : max a 4096 = if a < 4096 then 4096 else a := by
  split <;> omega

/-! ### Frames, each over a state that differs in an instruction's targets only -/

theorem raiseExec_sp_frame (sp : Fin 17) : raiseExec f { s with sp := sp } =
    { s with halted := (raiseExec f { s with sp := sp }).halted, pc := (raiseExec f { s with sp := sp }).pc,
             lastOpcode := (raiseExec f { s with sp := sp }).lastOpcode, draws := (raiseExec f { s with sp := sp }).draws,
             sp := (raiseExec f { s with sp := sp }).sp } := rfl

theorem raiseExec_stack_frame (sp : Fin 17) (stack : Vector Word 16) : raiseExec f { s with sp := sp, stack := stack } =
    { s with halted := (raiseExec f { s with sp := sp, stack := stack }).halted,
             pc := (raiseExec f { s with sp := sp, stack := stack }).pc,
             lastOpcode := (raiseExec f { s with sp := sp, stack := stack }).lastOpcode,
             draws := (raiseExec f { s with sp := sp, stack := stack }).draws,
             sp := (raiseExec f { s with sp := sp, stack := stack }).sp,
             stack := (raiseExec f { s with sp := sp, stack := stack }).stack } := rfl

theorem raiseExec_mem_frame (m : Memory) : raiseExec f { s with mem := m } =
    { s with halted := (raiseExec f { s with mem := m }).halted, pc := (raiseExec f { s with mem := m }).pc,
             lastOpcode := (raiseExec f { s with mem := m }).lastOpcode, draws := (raiseExec f { s with mem := m }).draws,
             mem := (raiseExec f { s with mem := m }).mem } := rfl

theorem raiseExec_v_frame (v : Vector Byte 16) : raiseExec f { s with v := v } =
    { s with halted := (raiseExec f { s with v := v }).halted, pc := (raiseExec f { s with v := v }).pc,
             lastOpcode := (raiseExec f { s with v := v }).lastOpcode, draws := (raiseExec f { s with v := v }).draws,
             v := (raiseExec f { s with v := v }).v } := rfl

end Sys2Proof.Proofs
end

section
/-! JP V0, CALL and RET of 41_flow.md R120, R122 and R123: the jump, both outcomes of the push and of the pop, and the return from
a call. -/

namespace Sys2Proof.Proofs

open Sys2Proof Sys2Proof.Machine

variable (nnn : Addr) {s : State}

/-! ### JP V0 -/

theorem exec_jpV0 (s : State) : exec (.jpV0 nnn) s = .next (writePc (offsetTarget nnn (readV s 0)) s) := rfl

/-- The sum of a 12-bit and an 8-bit number fits the 16 bits of PC. -/
@[simp] theorem offsetTarget_toNat (b : Byte) : (offsetTarget nnn b).toNat = nnn.toNat + b.toNat := by
  rw [offsetTarget, BitVec.toNat_ofNat]; omega

/-- Settles O17: the next state is `writePc` of the unreduced sum. -/
theorem jumpWithOffsetSetsThePc : Obligations.JumpWithOffsetSetsThePc := by
  intro nnn s
  have target : (writePc (offsetTarget nnn (readV s 0)) s).pc.toNat = nnn.toNat + (readV s 0).toNat := by
    rw [writePc_pc, offsetTarget_toNat]
  exact ⟨decodeWord_encode (.jpV0 nnn), _, exec_jpV0 nnn s, target, writePc_frame _ s⟩

/-! ### CALL -/

/-- The state a push leaves (10_state.md R25, R26). -/
def pushed (s : State) (room : s.sp.val < 16) : State :=
  { s with stack := s.stack.set s.sp.val s.pc, sp := ⟨s.sp.val + 1, by omega⟩ }

theorem exec_call_of_room (room : s.sp.val < 16) : exec (.call nnn) s = .next (writePc (addrWord nnn) (pushed s room)) := by
  simp only [exec, execCall, pushPc_ok room, pushed]

theorem exec_call_of_full (full : s.sp.val = 16) :
    exec (.call nnn) s = .next (raiseExec (.stackOverflow 16) (freeStack s)) := by
  simp only [exec, execCall, pushPc_full full]

theorem pushed_stack (room : s.sp.val < 16) (k : Nat) (hk : k < 16) :
    (pushed s room).stack[k] = if k = s.sp.val then s.pc else s.stack[k] := by
  simp only [pushed, Vector.getElem_set, eq_comm]

/-- Settles O18: below 16 the next state is the push with PC at the target, and at 16 it is the fault over a free stack. -/
theorem callPushesTheReturnAddress : Obligations.CallPushesTheReturnAddress := by
  intro nnn s
  refine ⟨decodeWord_encode (.call nnn), ?push, ?overflow⟩
  case push =>
    intro room
    exact ⟨_, exec_call_of_room nnn room, rfl, addrWord_toNat nnn, pushed_stack room, rfl⟩
  case overflow =>
    intro full
    exact ⟨_, exec_call_of_full nnn full, recordsFault_raiseExec _ _, raiseExec_stack_frame _ s _ _⟩

/-! ### RET -/

/-- The state a pop leaves: the slot itself is kept (10_state.md R25). -/
def popped (s : State) : State :=
  { s with sp := ⟨s.sp.val - 1, by omega⟩, pc := s.stack[s.sp.val - 1]'(by omega) }

theorem exec_ret_of_used (used : s.sp.val ≠ 0) : exec .ret s = .next (popped s) := by
  simp only [exec, execRet, popPc_ok used, popped]

theorem exec_ret_of_empty (empty : s.sp.val = 0) : exec .ret s = .next (raiseExec (.stackUnderflow 0) (freeSp s)) := by
  simp only [exec, execRet, popPc_empty empty]

theorem popped_sp (used : s.sp.val ≠ 0) : (popped s).sp.val + 1 = s.sp.val := by
  simp only [popped]; omega

theorem popped_pc {k : Nat} (hk : k < 16) (top : k + 1 = s.sp.val) :
    (popped s).pc = s.stack[k] := by
  simp only [popped, ← top, Nat.add_sub_cancel]

/-- Settles O19: above 0 the next state is the pop, and at 0 it is the fault over a free SP. -/
theorem retPopsTheReturnAddress : Obligations.RetPopsTheReturnAddress := by
  intro s
  refine ⟨decodeWord_encode .ret, ?pop, ?underflow⟩
  case pop =>
    intro used
    exact ⟨_, exec_ret_of_used (by omega), popped_sp (by omega), fun _ hk top => popped_pc hk top, rfl⟩
  case underflow =>
    intro empty
    exact ⟨_, exec_ret_of_empty empty, recordsFault_raiseExec _ _, raiseExec_sp_frame _ s _⟩

/-- Settles O20: the RET pops the slot the CALL wrote, the one below the SP it left. -/
theorem callThenRetReturns : Obligations.CallThenRetReturns := by
  intro nnn s room
  refine ⟨_, exec_call_of_room nnn room, fun t hsp hstack => ?_⟩
  have hsp : t.sp.val = s.sp.val + 1 := congrArg Fin.val hsp
  have used : t.sp.val ≠ 0 := by omega
  have slot : t.stack[s.sp.val] = s.pc := by
    simp only [hstack, writePc_stack, pushed_stack room s.sp.val room, if_pos]
  refine ⟨popped t, exec_ret_of_used used, (popped_pc room hsp.symm).trans slot, Fin.ext ?_⟩
  have := popped_sp used
  omega

end Sys2Proof.Proofs
end

section
/-! The fetch, the cycle and the step of 40_cycle.md R100 to R106 and 60_exceptions.md R212. -/

namespace Sys2Proof.Proofs

open Sys2Proof Sys2Proof.Machine

variable {s : State}

/-! ### The step -/

/-- Settles O8: the schedule is empty, or has an oldest operation. -/
theorem stepAppliesOneOperation : Obligations.StepAppliesOneOperation :=
  fun _ => ⟨step_of_empty, fun _ _ scheduled => step_of_cons scheduled⟩

theorem runWord_of_recognised {w addr : Word} {i : Instr} (known : decodeWord w = some i) : runWord w addr s = exec i s := by
  simp only [runWord, known]

/-- A due cycle over a recognised word, whole: the execute phase answers a next state, which is recorded unless it faulted. -/
theorem step_of_recognised {i : Instr} {t : State} (due : CycleDue s) (inside : s.pc.toNat ≤ 0xFFE)
    (known : decodeWord (wordAtPc s) = some i) (ht : exec i (writePc (s.pc + 2) s) = .next t) :
    step s = .next (if t.halted.isSome then t else recordOpcode (wordAtPc s) t) := by
  rw [step_of_due due inside, runWord_of_recognised known, ht, afterExec]

/-- Settles O6: the step is the due cycle's, and the execute phase answers a next state. -/
theorem stepRunsTheDecodedInstruction : Obligations.StepRunsTheDecodedInstruction := by
  intro s i due inside known
  obtain ⟨t, ht⟩ := exec_next i (writePc (s.pc + 2) s)
  have advanced : exec i { s with pc := s.pc + 2 } = .next t := ht
  rw [step_of_recognised due inside known ht, advanced]
  rfl

/-- Settles O12: the jump undoes the advance of PC, so that the record is the one change left. -/
theorem selfJumpOnlyRecordsItself : Obligations.SelfJumpOnlyRecordsItself := by
  intro s nnn due atTarget inside word
  have known : decodeWord (wordAtPc s) = some (.jp nnn) := word ▸ decodeWord_packNNN_jp nnn
  have back : addrWord nnn = s.pc := BitVec.eq_of_toNat_eq ((addrWord_toNat nnn).trans atTarget.symm)
  rw [step_of_recognised due (atTarget ▸ inside) known (exec_jp nnn _), back, word]
  simp [due.notHalted, recordOpcode, writePc]

/-! ### Which steps answer a next state -/

theorem cycle_next (s : State) : ∃ t, cycle s = .next t := by
  rcases cycle_cases s with ⟨-, gated⟩ | ⟨-, -, faults⟩ | ⟨-, -, w, -, runs⟩
  · exact ⟨_, gated⟩
  · exact ⟨_, faults⟩
  · rw [runs]
    cases known : decodeWord w with
    | none => rw [runWord_of_unrecognised known]; exact ⟨_, rfl⟩
    | some i =>
      obtain ⟨t, ht⟩ := exec_next i (writePc (s.pc + 2) s)
      rw [runWord_of_recognised known, ht]; exact ⟨_, rfl⟩

/-- Every host operation answers a next state but a key press with a bad code. -/
theorem applyOp_next_or_refused (op : HostOp) (s : State) : (∃ t, applyOp op s = .next t) ∨
    ∃ k p, op = .setKey k p ∧ 16 ≤ k ∧ applyOp op s = .refused (.keyCodeOutOfRange k) := by
  cases op with
  | cycle => exact .inl (cycle_next s)
  | setKey k p =>
    by_cases hk : k < 16
    · exact .inl ⟨_, dif_pos hk⟩
    · exact .inr ⟨k, p, rfl, by omega, dif_neg hk⟩
  | reset | loadRom | tickTimers | markClean | setPaused => exact .inl ⟨_, rfl⟩

/-- Settles O11: a step is a cycle, which answers a next state, or the oldest scheduled operation. -/
theorem stepAnswersNextOrRefusesABadKey : Obligations.StepAnswersNextOrRefusesABadKey := by
  intro s
  cases scheduled : s.schedule with
  | nil => rw [step_of_empty scheduled]; exact .inl (cycle_next s)
  | cons op rest =>
    rw [step_of_cons scheduled]
    rcases applyOp_next_or_refused op { s with schedule := rest } with next | ⟨k, p, rfl, bad, refused⟩
    · exact .inl next
    · exact .inr ⟨k, p, rest, rfl, bad, refused⟩

/-! ### The fetch -/

/-- A Running cycle whose fetch leaves memory enters the fault and nothing else. -/
theorem cycle_of_fetch_fault (running : gated s = false) (outside : 0xFFF ≤ s.pc.toNat) :
    cycle s = .next (raise (.memOutOfBounds .read (max s.pc.toNat 4096)) s.pc s) := by
  simp [cycle, running, fetch_error outside]

/-- Settles O9: inside memory the fetch is the two bytes of `fetch_ok`, and outside it the cycle is the fault entry. -/
theorem fetchReadsTwoBytesOrHalts : Obligations.FetchReadsTwoBytesOrHalts := by
  intro s
  constructor
  · intro inside
    exact ⟨_, fetch_ok inside, wordOfBytes_toNat _ _⟩
  · intro running outside
    have first : max s.pc.toNat 4096 = if s.pc.toNat = 0xFFF then 0x1000 else s.pc.toNat := by
      split <;> omega
    refine ⟨_, cycle_of_fetch_fault (runState_eq_running.1 running) outside, ?_, rfl⟩
    rw [raise_halted, first]

end Sys2Proof.Proofs
end

section
/-! The key skips of 42_skip.md R135 to R137: on a key's level below 16, and on a fresh free value from 16 up. -/

namespace Sys2Proof.Proofs

open Sys2Proof Sys2Proof.Machine

variable (x : Reg) (c : Bool) {s : State}

theorem exec_skp (s : State) :
    exec (.skp x) s = .next (skipIf (keyState (readV s x) s).1 (keyState (readV s x) s).2) := rfl

theorem exec_sknp (s : State) :
    exec (.sknp x) s = .next (skipIf (!(keyState (readV s x) s).1) (keyState (readV s x) s).2) := rfl

theorem keyState_of_key {b : Byte} {k : Fin 16} (h : b.toNat = k.val) : keyState b s = (s.keys[k.val], s) := by
  rw [keyState_lt (by omega)]
  simp only [h]

theorem skipIf_not_pc : (skipIf (!c) s).pc = if c = true then s.pc else s.pc + 2 := by
  cases c <;> rfl

/-- A skip after a draw changes PC and the draw counter. -/
theorem skipIf_countDraw_frame : skipIf c (countDraw s) =
    { s with pc := (skipIf c (countDraw s)).pc, draws := (skipIf c (countDraw s)).draws } := by
  cases c <;> rfl

theorem skipIf_countDraw_draws : (skipIf c (countDraw s)).draws = s.draws + 1 := by
  cases c <;> rfl

/-- Settles O22: each of the two is a `skipIf` on the key state read, which draws a free value from 16 up. -/
theorem skipsOnKeys : Obligations.SkipsOnKeys := by
  intro x s
  refine ⟨decodeWord_encode (.skp x), decodeWord_encode (.sknp x), ?level, ?free⟩
  case level =>
    intro k hk
    rw [exec_skp, exec_sknp, keyState_of_key hk]
    exact ⟨⟨_, rfl, skipIf_pc _ s, skipIf_frame _ s⟩, ⟨_, rfl, skipIf_not_pc _, skipIf_frame _ s⟩⟩
  case free =>
    intro beyond
    rw [exec_skp, exec_sknp, keyState_ge beyond]
    exact ⟨⟨_, rfl, skipIf_pc _ _, skipIf_countDraw_draws _, skipIf_countDraw_frame _⟩,
      ⟨_, rfl, skipIf_not_pc _, skipIf_countDraw_draws _, skipIf_countDraw_frame _⟩⟩

end Sys2Proof.Proofs
end

section
/-! The subtractions, the shifts and the random byte of 43_alu.md R148 to R153. VF is written first, so an operand that is VF is
the flag. -/

namespace Sys2Proof.Proofs

open Sys2Proof Sys2Proof.Machine

variable (x y a b : Reg) (f : Byte) (s : State)

/-! ### Execution -/

theorem exec_sub : exec (.sub x y) s =
    .next (writeV x (readV (writeV VF (greater (readV s x) (readV s y)) s) x -
      readV (writeV VF (greater (readV s x) (readV s y)) s) y) (writeV VF (greater (readV s x) (readV s y)) s)) := rfl

theorem exec_subn : exec (.subn x y) s =
    .next (writeV x (readV (writeV VF (greater (readV s y) (readV s x)) s) y -
      readV (writeV VF (greater (readV s y) (readV s x)) s) x) (writeV VF (greater (readV s y) (readV s x)) s)) := rfl

theorem exec_shr : exec (.shr x y) s =
    .next (writeV x (readV (writeV VF (lowBit (readV s x)) s) x >>> 1) (writeV VF (lowBit (readV s x)) s)) := rfl

theorem exec_shl : exec (.shl x y) s =
    .next (writeV x (readV (writeV VF (highBit (readV s x)) s) x <<< 1) (writeV VF (highBit (readV s x)) s)) := rfl

theorem exec_rnd (nn : Byte) :
    exec (.rnd x nn) s = .next (writeV x (Config.randomByte s.draws &&& nn) (countDraw s)) := rfl

/-! ### Operands read after the flag -/

theorem greater_toNat (p q : Byte) : (greater p q).toNat = if p.toNat > q.toNat then 1 else 0 := by
  simp only [greater, flag_toNat, decide_eq_true_eq]

theorem readV_flag_self (h : a = 15) : readV (writeV VF f s) a = f := by
  rw [readV_writeV, if_pos h]

theorem readV_flag_other (h : a ≠ 15) : readV (writeV VF f s) a = readV s a := by
  rw [readV_writeV, if_neg h]

theorem byte_sub_toNat (p q : Byte) : (p - q).toNat = (p.toNat + 256 - q.toNat) % 256 := by
  bv_omega

/-- The difference of two registers read after the flag, in the four cases of which of them is VF. -/
theorem sub_after_flag :
    (a ≠ 15 → b ≠ 15 → (readV (writeV VF f s) a - readV (writeV VF f s) b).toNat =
      ((readV s a).toNat + 256 - (readV s b).toNat) % 256) ∧
    (a ≠ 15 → b = 15 → (readV (writeV VF f s) a - readV (writeV VF f s) b).toNat =
      ((readV s a).toNat + 256 - f.toNat) % 256) ∧
    (a = 15 → b ≠ 15 → (readV (writeV VF f s) a - readV (writeV VF f s) b).toNat =
      (f.toNat + 256 - (readV s b).toNat) % 256) ∧
    (a = 15 → b = 15 → (readV (writeV VF f s) a - readV (writeV VF f s) b).toNat = 0) := by
  refine ⟨fun ha hb => ?_, fun ha hb => ?_, fun ha hb => ?_, fun ha hb => ?_⟩
  · rw [byte_sub_toNat, readV_flag_other a f s ha, readV_flag_other b f s hb]
  · rw [byte_sub_toNat, readV_flag_other a f s ha, readV_flag_self b f s hb]
  · rw [byte_sub_toNat, readV_flag_self a f s ha, readV_flag_other b f s hb]
  · rw [ha, hb, BitVec.sub_self]; rfl

/-- Settles O26: the flag is the strict comparison, and the difference is `sub_after_flag`'s. -/
theorem subtractWithStrictFlag : Obligations.SubtractWithStrictFlag := by
  intro x y s
  refine ⟨decodeWord_encode (.sub x y), _, exec_sub x y s, onlyRegs_writeV_flag x _ _ s, fun f hf => ?_⟩
  have hf : (greater (readV s x) (readV s y)).toNat = f := (greater_toNat _ _).trans hf.symm
  obtain ⟨neither, second, first, both⟩ := sub_after_flag x y (greater (readV s x) (readV s y)) s
  rw [readV_writeV_same]
  exact ⟨fun hx => by rw [readV_flag_writeV _ _ _ _ hx, hf], neither, hf ▸ second, hf ▸ first, both⟩

/-- Settles O27: as SUB with the operands exchanged. -/
theorem reverseSubtractWithStrictFlag : Obligations.ReverseSubtractWithStrictFlag := by
  intro x y s
  refine ⟨decodeWord_encode (.subn x y), _, exec_subn x y s, onlyRegs_writeV_flag x _ _ s, fun f hf => ?_⟩
  have hf : (greater (readV s y) (readV s x)).toNat = f := (greater_toNat _ _).trans hf.symm
  obtain ⟨neither, second, first, both⟩ := sub_after_flag y x (greater (readV s y) (readV s x)) s
  rw [readV_writeV_same]
  exact ⟨fun hx => by rw [readV_flag_writeV _ _ _ _ hx, hf], fun hx hy => neither hy hx, fun hx hy => hf ▸ first hy hx,
    fun hx hy => hf ▸ second hy hx, fun hx hy => both hy hx⟩

/-! ### Shifts -/

theorem byte_shr_toNat (p : Byte) : (p >>> 1).toNat = p.toNat / 2 := by
  rw [BitVec.toNat_ushiftRight, Nat.shiftRight_eq_div_pow, pow_one]

theorem byte_shl_toNat (p : Byte) : (p <<< 1).toNat = p.toNat * 2 % 256 := by
  rw [BitVec.toNat_shiftLeft, Nat.shiftLeft_eq, pow_one]

/-- Settles O28: away from VF the shifted operand is Vx and the flag its lost bit; at VF the lost bit itself is shifted. -/
theorem shiftsMoveOneBit : Obligations.ShiftsMoveOneBit := by
  intro x y s
  refine ⟨⟨decodeWord_encode (.shr x y), _, exec_shr x y s, onlyRegs_writeV_flag x _ _ s, fun hx => ⟨?shrFlag, ?shrValue⟩,
      fun hx => ?shrAtFlag, fun y' => exec_shr x y' s⟩,
    decodeWord_encode (.shl x y), _, exec_shl x y s, onlyRegs_writeV_flag x _ _ s, fun hx => ⟨?shlFlag, ?shlValue⟩,
      fun hx => ?shlAtFlag, fun y' => exec_shl x y' s⟩
  case shrFlag => rw [readV_flag_writeV _ _ _ _ hx, lowBit_toNat]
  case shrValue => rw [readV_writeV_same, byte_shr_toNat, readV_flag_other _ _ _ hx]
  case shrAtFlag => rw [readV_writeV_same, byte_shr_toNat, readV_flag_self _ _ _ hx, lowBit_toNat]; omega
  case shlFlag => rw [readV_flag_writeV _ _ _ _ hx, highBit_toNat]
  case shlValue => rw [readV_writeV_same, byte_shl_toNat, readV_flag_other _ _ _ hx]
  case shlAtFlag =>
    rw [readV_writeV_same, byte_shl_toNat, readV_flag_self _ _ _ hx, highBit_toNat]
    have := (readV s x).isLt
    omega

/-! ### The random byte -/

/-- Settles O29: the register written holds the free byte under the mask, and the draw is counted. -/
theorem randomByteUnderTheMask : Obligations.RandomByteUnderTheMask := by
  intro x nn s
  have value := readV_writeV_same x (Config.randomByte s.draws &&& nn) (countDraw s)
  refine ⟨decodeWord_encode (.rnd x nn), _, exec_rnd x s nn, value, rfl, fun bit clear => ?masked, fun k hk => ?others, rfl⟩
  case masked => rw [value, BitVec.getLsbD_and, clear, Bool.and_false]
  case others => rw [readV_writeV, if_neg hk, readV_countDraw]

end Sys2Proof.Proofs
end

section
/-! The index register and the memory transfers of 44_index_memory.md R161 to R165: a store or a load at I where its bytes exist,
and its fault where they do not. -/

namespace Sys2Proof.Proofs

open Sys2Proof Sys2Proof.Machine

variable (x : Reg) {s : State}

/-! ### Execution -/

theorem exec_ldFont (s : State) : exec (.ldFont x) s = .next (writeI (fontAddr s.cfg (readV s x)) s) := rfl

theorem exec_addI_of_le (h : s.i.toNat + (readV s x).toNat ≤ 0xFFF) :
    exec (.addI x) s = .next (writeI (BitVec.ofNat 16 (s.i.toNat + (readV s x).toNat)) s) := by
  simp only [exec, execAddI, indexOverflows, decide_eq_true_eq, if_neg (show ¬ s.i.toNat + (readV s x).toNat > 0xFFF by omega)]

theorem exec_addI_of_gt (h : 0xFFF < s.i.toNat + (readV s x).toNat) :
    exec (.addI x) s =
      .next (writeI (BitVec.ofNat 16 ((s.i.toNat + (readV s x).toNat) % 0x1000)) (writeV VF 1 s)) := by
  simp only [exec, execAddI, indexOverflows, decide_eq_true_eq, if_pos (show s.i.toNat + (readV s x).toNat > 0xFFF from h)]

theorem exec_ldBcd (s : State) : exec (.ldBcd x) s = .next (storeAtI (digits (readV s x)) s) := rfl

theorem exec_storeRegs (s : State) : exec (.storeRegs x) s = .next (storeAtI (regBlock s x) s) := rfl

/-! ### The index register -/

/-- No font address wraps: FONT_BASE + 80 <= 0x200 and the byte adds at most 1275. -/
theorem fontAddr_toNat (c : Config) (b : Byte) : (fontAddr c b).toNat = c.fontBase.val + b.toNat * 5 := by
  rw [fontAddr, BitVec.toNat_ofNat]; omega

/-- Settles O31: the next state is `writeI` of an address that does not wrap. -/
theorem fontAddressUsesTheWholeByte : Obligations.FontAddressUsesTheWholeByte := by
  intro x s
  exact ⟨decodeWord_encode (.ldFont x), _, exec_ldFont x s, fontAddr_toNat s.cfg (readV s x), writeI_frame _ s⟩

/-- Settles O32: VF is written only on the side of the comparison that masks the sum. -/
theorem addIndexFlagsOverflow : Obligations.AddIndexFlagsOverflow := by
  intro x s
  refine ⟨decodeWord_encode (.addI x), ?within, ?past⟩
  case within =>
    intro h
    refine ⟨_, exec_addI_of_le x h, ?_, writeI_frame _ s⟩
    rw [writeI_i, BitVec.toNat_ofNat]; omega
  case past =>
    intro h
    refine ⟨_, exec_addI_of_gt x h, ?_, readV_writeV_same VF 1 s, fun k hk => ?_, rfl⟩
    · rw [writeI_i, BitVec.toNat_ofNat]; omega
    · rw [readV_writeI, readV_writeV, if_neg hk]

/-! ### Stores at I -/

/-- A store whose bytes exist writes them and no other byte or field. -/
theorem storeAtI_completes {bs : List Byte} (fits : s.i.toNat + bs.length ≤ 4096) :
    (∀ k, k < bs.length → byteAt (storeAtI bs s) (s.i.toNat + k) = bs.getD k 0) ∧
    SameBytesBut (fun a => s.i.toNat ≤ a ∧ a < s.i.toNat + bs.length) s (storeAtI bs s) ∧
    storeAtI bs s = { s with mem := (storeAtI bs s).mem } := by
  rw [storeAtI_ok fits]
  refine ⟨fun k hk => ?stored, fun a ha => ?others, setBlock_frame _ _ s⟩
  case stored => rw [byteAt_setBlock, if_pos (by omega), Nat.add_sub_cancel_left]
  case others => rw [byteAt_setBlock, if_neg ha]

/-- A store that leaves memory faults at the first address outside it, and changes no byte but its targets. -/
theorem storeAtI_faults {bs : List Byte} (past : 4096 < s.i.toNat + bs.length) (nonempty : bs ≠ []) :
    RecordsFault (.memOutOfBounds .write (if s.i.toNat < 4096 then 4096 else s.i.toNat)) (storeAtI bs s) ∧
    SameBytesBut (fun a => s.i.toNat ≤ a ∧ a < s.i.toNat + bs.length) s (storeAtI bs s) ∧
    storeAtI bs s = { s with halted := (storeAtI bs s).halted, pc := (storeAtI bs s).pc,
                             lastOpcode := (storeAtI bs s).lastOpcode, draws := (storeAtI bs s).draws,
                             mem := (storeAtI bs s).mem } := by
  rw [storeAtI_error past nonempty, max_memSize]
  refine ⟨recordsFault_raiseExec _ _, fun a ha => ?others, ?frame⟩
  case others => rw [byteAt_raiseExec, byteAt_freeBlock_other _ _ _ _ (by omega)]
  case frame => rw [freeBlock_frame]; exact raiseExec_mem_frame _ s _

theorem digits_length (b : Byte) : (digits b).length = 3 := rfl

/-- Each digit of a byte is below 10, so it fits the byte it is stored in. -/
theorem digits_toNat (b : Byte) : ((digits b).getD 0 0).toNat = b.toNat / 100 ∧
    ((digits b).getD 1 0).toNat = b.toNat / 10 % 10 ∧ ((digits b).getD 2 0).toNat = b.toNat % 10 := by
  have := b.isLt
  simp only [digits, List.getD_cons_zero, List.getD_cons_succ, BitVec.toNat_ofNat]
  omega

/-- Settles O33: a store at I of three digits. -/
theorem storeDecimalDigits : Obligations.StoreDecimalDigits := by
  intro x s
  have len := digits_length (readV s x)
  refine ⟨decodeWord_encode (.ldBcd x), ?fits, ?past⟩
  case fits =>
    intro h
    obtain ⟨hundreds, tens, units⟩ := digits_toNat (readV s x)
    obtain ⟨stored, others, frame⟩ := storeAtI_completes (s := s) (bs := digits (readV s x)) (by omega)
    have h0 := stored 0 (by omega)
    have h1 := stored 1 (by omega)
    have h2 := stored 2 (by omega)
    exact ⟨_, exec_ldBcd x s, (congrArg _ h0).trans hundreds, (congrArg _ h1).trans tens, (congrArg _ h2).trans units,
      others, frame⟩
  case past =>
    intro h
    exact ⟨_, exec_ldBcd x s, storeAtI_faults (by omega) (List.cons_ne_nil _ _)⟩

/-- Settles O34: a store at I of the block V0..Vx. -/
theorem storeRegistersAtI : Obligations.StoreRegistersAtI := by
  intro x s
  have len := regBlock_length s x
  refine ⟨decodeWord_encode (.storeRegs x), ?fits, ?past⟩
  case fits =>
    intro h
    obtain ⟨stored, others, frame⟩ := storeAtI_completes (s := s) (bs := regBlock s x) (by omega)
    refine ⟨_, exec_storeRegs x s, fun k hk => ?_, len ▸ others, frame⟩
    have hk : k.val < x.val + 1 := Nat.lt_succ_of_le hk
    exact (stored k.val (by omega)).trans (regBlock_getD s x k.val hk)
  case past =>
    intro h
    have nonempty : regBlock s x ≠ [] := List.ne_nil_of_length_eq_add_one len
    obtain ⟨records, others, frame⟩ := storeAtI_faults (s := s) (by omega) nonempty
    exact ⟨_, exec_storeRegs x s, records, len ▸ others, frame⟩

/-! ### Loads from I -/

theorem exec_loadRegs_of_lt (h : s.i.toNat + x.val < 4096) : exec (.loadRegs x) s =
    .next (writeRegsFrom 0 ((List.range' s.i.toNat (x.val + 1)).map (byteAt s)) s) := by
  rcases loadRegs_cases x s with ⟨-, completes⟩ | ⟨past, -⟩
  · exact completes
  · omega

theorem exec_loadRegs_of_ge (h : 4096 ≤ s.i.toNat + x.val) : exec (.loadRegs x) s =
    .next (raiseExec (.memOutOfBounds .read (max s.i.toNat 4096)) (freeRegs (x.val + 1) s)) := by
  rcases loadRegs_cases x s with ⟨fits, -⟩ | ⟨-, faults⟩
  · omega
  · exact faults

/-- A register after a block of bytes from I has been loaded into V0 and up. -/
theorem readV_loaded (n : Nat) (k : Reg) (s : State) :
    readV (writeRegsFrom 0 ((List.range' s.i.toNat n).map (byteAt s)) s) k =
      if k.val < n then byteAt s (s.i.toNat + k.val) else readV s k := by
  rw [readV_writeRegsFrom]
  simp only [Nat.zero_le, true_and, Nat.zero_add, List.length_map, List.length_range', Nat.sub_zero]
  split
  case isTrue hk => rw [List.getD_eq_getElem _ _ (by simpa using hk)]; simp
  case isFalse => rfl

/-- Settles O35: the completed load writes registers only, and the fault frees no more of them than it names. -/
theorem loadRegistersFromI : Obligations.LoadRegistersFromI := by
  intro x s
  refine ⟨decodeWord_encode (.loadRegs x), ?fits, ?past⟩
  case fits =>
    intro h
    refine ⟨_, exec_loadRegs_of_lt x h, fun k hk => ?loaded, writeRegsFrom_frame _ _ s, fun k hk => ?others⟩
    case loaded => rw [readV_loaded, if_pos (Nat.lt_succ_of_le hk)]
    case others => rw [readV_loaded, if_neg fun h => hk (Nat.le_of_lt_succ h)]
  case past =>
    intro h
    have faults := exec_loadRegs_of_ge x h
    rw [max_memSize] at faults
    refine ⟨_, faults, recordsFault_raiseExec _ _, fun k hk => ?others,
      raiseExec_v_frame _ s _⟩
    rw [readV_raiseExec, readV_freeRegs, if_neg fun h => Nat.not_lt_of_ge (Nat.le_of_lt_succ h) hk]

/-! ### A store read back -/

/-- The bytes a completed Fx55 leaves at I, read as memory bytes. -/
theorem byteAt_of_storeRegs {t : State} (fits : s.i.toNat + x.val < 4096) (ht : exec (.storeRegs x) s = .next t) {k : Reg}
    (hk : k ≤ x) : byteAt t (s.i.toNat + k.val) = readV s k := by
  obtain ⟨-, completes, -⟩ := storeRegistersAtI x s
  obtain ⟨t', ht', stored, -⟩ := completes fits
  cases ht.symm.trans ht'
  exact stored k hk

theorem i_pc_of_storeRegs {t : State} (fits : s.i.toNat + x.val < 4096) (ht : exec (.storeRegs x) s = .next t) :
    t.i = s.i ∧ t.pc = s.pc := by
  obtain ⟨-, completes, -⟩ := storeRegistersAtI x s
  obtain ⟨t', ht', -, -, frame⟩ := completes fits
  cases ht.symm.trans ht'
  rw [frame]
  exact ⟨rfl, rfl⟩

/-- Settles O36: the load reads the bytes the store left. -/
theorem storeThenLoadRestoresRegisters : Obligations.StoreThenLoadRestoresRegisters := by
  intro x s t u fits ht hmem hcfg hi
  have hi : u.i = s.i := hi.trans (i_pc_of_storeRegs x fits ht).1
  have same (a : Nat) : byteAt u a = byteAt t a := by simp only [byteAt, hmem, hcfg]
  refine ⟨_, exec_loadRegs_of_lt x (by rwa [hi]), fun k hk => ?_⟩
  rw [readV_loaded, if_pos (Nat.lt_succ_of_le hk), hi, same, byteAt_of_storeRegs x fits ht hk]

/-- Settles O15: with I at PC the store's first two bytes are those the fetch reads. -/
theorem storedBytesAreFetchedNext : Obligations.StoredBytesAreFetchedNext := by
  intro s t x atPc two fits ht
  have hpc : t.pc = s.i := (i_pc_of_storeRegs x fits ht).2.trans atPc.symm
  have first := byteAt_of_storeRegs x fits ht (Fin.zero_le x)
  have second := byteAt_of_storeRegs x fits ht (k := 1) two
  rw [fetch_ok (by rw [hpc]; omega), hpc]
  exact congrArg _ (congrArg₂ wordOfBytes first second)

end Sys2Proof.Proofs
end

section
/-! Canonical memories (log 12): the entries of one are the bytes that read other than the reset contents, so its reads determine
it. -/

namespace Sys2Proof.Proofs

open Sys2Proof Sys2Proof.Machine

/-- The order of the entries of a canonical memory: strictly rising addresses. -/
def addrBefore (p q : Nat × Byte) : Prop := p.1 < q.1

/-- Where no address is listed twice, an entry is what its address finds. -/
theorem find_eq_some_iff {m : Memory} (rising : m.Pairwise addrBefore) (a : Nat) (b : Byte) :
    Memory.find m a = some b ↔ (a, b) ∈ m := by
  induction m with
  | nil => simp [Memory.find]
  | cons e m ih =>
    obtain ⟨later, rising⟩ := List.pairwise_cons.1 rising
    rw [Memory.find, List.mem_cons]
    split
    case isTrue head =>
      have absent : (a, b) ∉ m := fun mem => absurd (later _ mem) (by simp [addrBefore, head])
      simp [absent, Prod.ext_iff, head, eq_comm]
    case isFalse other =>
      rw [ih rising, or_iff_right]
      exact fun same => other (congrArg Prod.fst same).symm

/-- The entries of a canonical memory, from its reads alone. -/
theorem mem_iff_get {c : Config} {m : Memory} (canonical : Memory.wf c m = true) (a : Nat) (b : Byte) :
    (a, b) ∈ m ↔ a < 4096 ∧ b ≠ Memory.unlisted c a ∧ Memory.get c m a = b := by
  obtain ⟨rising, valid⟩ := (Memory.wf_iff c m).1 canonical
  rw [← find_eq_some_iff rising, Memory.get]
  constructor
  · intro found
    obtain ⟨inside, differs⟩ := valid _ ((find_eq_some_iff rising a b).1 found)
    exact ⟨inside, differs, by rw [found, Option.getD_some]⟩
  · rintro ⟨-, differs, rfl⟩
    cases found : Memory.find m a with
    | none => rw [found] at differs; exact absurd rfl differs
    | some b => rfl

/-- Settles O14: the two have the same entries, and strictly rising lists with the same entries are equal. -/
theorem equalReadsGiveEqualMemory : Obligations.EqualReadsGiveEqualMemory := by
  intro c m m' hm hm' same
  have irrefl : Std.Irrefl addrBefore := ⟨fun p => Nat.lt_irrefl p.1⟩
  have antisymm : Std.Antisymm addrBefore := ⟨fun p q pq qp => absurd qp (Nat.lt_asymm pq)⟩
  refine List.Pairwise.eq_of_mem_iff ((Memory.wf_iff c m).1 hm).1 ((Memory.wf_iff c m').1 hm').1 fun ⟨a, b⟩ => ?_
  rw [mem_iff_get hm, mem_iff_get hm']
  exact and_congr_right fun inside => by rw [same a inside]

end Sys2Proof.Proofs
end

section
/-! DRW of 45_display.md R171 to R176: the cells it flips and the collision it reports, its fault, and two equal draws in a row. -/

namespace Sys2Proof.Proofs

open Sys2Proof Sys2Proof.Machine

variable {x y : Reg} {n : Nibble} {s t : State} {px py : Nat}

/-! ### One draw -/

/-- The display and the collision of the sprite of n bytes at I, drawn at (V[x], V[y]). -/
def drawn (x y : Reg) (n : Nibble) (s : State) : Vector (BitVec 64) 32 × Bool :=
  drawSprite (readV s x).toNat (readV s y).toNat (sprite s n) s.disp

theorem exec_drw_of_readable (readable : SpriteReadable s n) :
    exec (.drw x y n) s = .next (writeV VF (flag (drawn x y n s).2) (writeDisp (drawn x y n s).1 s)) := by
  rcases drw_cases x y n s with ⟨-, draws⟩ | ⟨unreadable, -⟩
  · exact draws
  · exact absurd readable unreadable

theorem exec_drw_of_unreadable (unreadable : ¬ SpriteReadable s n) : exec (.drw x y n) s =
    .next (raiseExec (.memOutOfBounds .read (max s.i.toNat 4096)) (freeDrawTargets x y n s)) := by
  rcases drw_cases x y n s with ⟨readable, -⟩ | ⟨-, faults⟩
  · exact absurd readable unreadable
  · exact faults

/-- Sixteen rows at most, so no row meets another by wrapping. -/
theorem sprite_length_le (s : State) (n : Nibble) : (sprite s n).length ≤ 32 := by
  rw [sprite, List.length_map, List.length_range']; omega

theorem xor_decide_eq_true (b : Bool) (p : Prop) [Decidable p] : (b ^^ decide p) = true ↔ ¬ (b = true ↔ p) := by
  by_cases hp : p <;> simp [hp]

/-- A draw flips the covered cells (R171). -/
theorem pixel_drawn : pixel (drawn x y n s).1 px py = true ↔ ¬ (pixel s.disp px py = true ↔ SpriteCovers s x y n px py) := by
  have flips := (drawSprite_spec (readV s x).toNat (readV s y).toNat (sprite s n) (sprite_length_le s n) s.disp).1 (px, py)
  rw [drawn, flips, xor_decide_eq_true, mem_spriteCells_iff_covers]

/-- A draw collides where it clears a cell (R172). -/
theorem drawn_collides : (drawn x y n s).2 = true ↔ ∃ px py, SpriteCovers s x y n px py ∧ pixel s.disp px py = true := by
  rw [drawn, (drawSprite_spec _ _ _ (sprite_length_le s n) _).2, Prod.exists]
  simp only [mem_spriteCells_iff_covers]

theorem flag_eq_one {p : Bool} : flag p = 1 ↔ p = true := by
  cases p <;> decide

/-- The frame of a draw: VF, the display and its dirty flag. -/
theorem drawn_frame (f : Byte) (d : Vector (BitVec 64) 32) (s : State) : writeV VF f (writeDisp d s) =
    { s with disp := (writeV VF f (writeDisp d s)).disp, dirty := (writeV VF f (writeDisp d s)).dirty,
             v := (writeV VF f (writeDisp d s)).v } := rfl

theorem readV_VF_drawn (f : Byte) (d : Vector (BitVec 64) 32) (s : State) : readV (writeV VF f (writeDisp d s)) 15 = f :=
  readV_writeV_same VF f _

theorem raiseExec_draw_frame (f : Fault) (v : Vector Byte 16) (d : Vector (BitVec 64) 32) (b : Bool) (s : State) :
    raiseExec f { s with disp := d, dirty := b, v := v } =
      { s with halted := (raiseExec f { s with disp := d, dirty := b, v := v }).halted,
               pc := (raiseExec f { s with disp := d, dirty := b, v := v }).pc,
               lastOpcode := (raiseExec f { s with disp := d, dirty := b, v := v }).lastOpcode,
               draws := (raiseExec f { s with disp := d, dirty := b, v := v }).draws,
               disp := (raiseExec f { s with disp := d, dirty := b, v := v }).disp,
               dirty := (raiseExec f { s with disp := d, dirty := b, v := v }).dirty,
               v := (raiseExec f { s with disp := d, dirty := b, v := v }).v } := rfl

@[simp] theorem raiseExec_disp (f : Fault) (s : State) : (raiseExec f s).disp = s.disp := rfl
@[simp] theorem raiseExec_dirty (f : Fault) (s : State) : (raiseExec f s).dirty = s.dirty := rfl

/-- Settles O38: a readable sprite is `drawn`, and an unreadable one is the fault over DRW's free targets. -/
theorem drawFlipsTheSpriteCells : Obligations.DrawFlipsTheSpriteCells := by
  intro x y n s
  refine ⟨decodeWord_encode (.drw x y n), ?draws, ?faults⟩
  case draws =>
    intro readable
    refine ⟨_, exec_drw_of_readable readable, fun px py _ _ => pixel_drawn, fun hit => ?hits, fun miss => ?misses, rfl,
      fun k hk => ?others, drawn_frame _ _ s⟩
    case hits => rw [readV_VF_drawn, drawn_collides.2 hit]; rfl
    case misses => rw [readV_VF_drawn, Bool.eq_false_iff.2 (mt drawn_collides.1 miss)]; rfl
    case others => rw [readV_writeV, if_neg hk, readV_writeDisp]
  case faults =>
    intro unreadable
    have faults := exec_drw_of_unreadable (x := x) (y := y) unreadable
    rw [max_memSize] at faults
    refine ⟨_, faults, recordsFault_raiseExec _ _, fun k hk => ?others, fun dirty => ?stays, fun px py _ _ outside => ?cells,
      raiseExec_draw_frame _ _ _ _ s⟩
    case others => rw [readV_raiseExec, readV_freeDrawTargets x y n s hk]
    case stays => rw [raiseExec_dirty, dirty_freeDrawTargets x y n s dirty]
    case cells => rw [raiseExec_disp, pixel_freeDrawTargets x y n s outside]

/-! ### Two equal draws -/

/-- The second of two equal draws: what it needs of the state `t` that the first left, as the statements give it. -/
structure SameDraw (x y : Reg) (n : Nibble) (s t : State) : Prop where
  index : t.i = s.i
  column : readV t x = readV s x
  row : readV t y = readV s y
  bytes : ∀ k, k < n.toNat → byteAt t (s.i.toNat + k) = byteAt s (s.i.toNat + k)

theorem SameDraw.covers (h : SameDraw x y n s t) : SpriteCovers t x y n px py ↔ SpriteCovers s x y n px py := by
  unfold SpriteCovers
  rw [h.index, h.column, h.row]
  refine exists_congr fun r => exists_congr fun c => and_congr_right fun hr => ?_
  rw [h.bytes r hr]

theorem SameDraw.readable (h : SameDraw x y n s t) (readable : SpriteReadable s n) : SpriteReadable t n := by
  unfold SpriteReadable
  rwa [h.index]

/-- Flipping the same cells again restores every cell. -/
theorem SameDraw.disp_restored (h : SameDraw x y n s t) (first : t.disp = (drawn x y n s).1) : (drawn x y n t).1 = s.disp := by
  refine disp_ext fun px py _ _ => Bool.eq_iff_iff.2 ?_
  rw [pixel_drawn, first, pixel_drawn, h.covers]
  tauto

/-- The second draw clears the cells the first set. -/
theorem SameDraw.collides (h : SameDraw x y n s t) (first : t.disp = (drawn x y n s).1) :
    (drawn x y n t).2 = true ↔ ∃ px py, SpriteCovers s x y n px py ∧ pixel s.disp px py = false := by
  rw [drawn_collides]
  refine exists_congr fun px => exists_congr fun py => ?_
  rw [h.covers, first, pixel_drawn, ← Bool.not_eq_true]
  tauto

/-- A sprite covers a cell where it has a set bit. -/
theorem exists_covers : (∃ px py, SpriteCovers s x y n px py) ↔
    ∃ r c, r < n.toNat ∧ c < 8 ∧ (byteAt s (s.i.toNat + r)).getLsbD c = true := by
  constructor
  · rintro ⟨px, py, r, c, hr, hc, bit, -, -⟩
    exact ⟨r, 7 - c, hr, by omega, bit⟩
  · rintro ⟨r, c, hr, hc, bit⟩
    exact ⟨_, _, r, 7 - c, hr, by omega, by rwa [show 7 - (7 - c) = c by omega], rfl, rfl⟩

/-- Settles O39: flipping the same cells twice restores them, and the second draw clears the cells the first one set. -/
theorem drawTwiceRestoresTheDisplay : Obligations.DrawTwiceRestoresTheDisplay := by
  intro x y n s t t' u readable ht hdisp hi hx hy hbytes hu
  cases (exec_drw_of_readable readable).symm.trans ht
  have same : SameDraw x y n s t' := ⟨hi, hx, hy, hbytes⟩
  have first : t'.disp = (drawn x y n s).1 := hdisp
  cases (exec_drw_of_readable (same.readable readable)).symm.trans hu
  have collides := flag_eq_one.trans (same.collides first)
  refine ⟨same.disp_restored first, ?_, fun clear => ?_⟩
  · rw [readV_VF_drawn]; exact collides
  · rw [readV_VF_drawn, collides, ← exists_covers]
    exact exists_congr fun px => exists_congr fun py => and_iff_left_of_imp (clear px py)

/-! ### Two equal draws over a set cell -/

/-- A sprite of one set bit at I, over a display whose only set cell is the one that bit lands on. -/
def dotOverSetCell : State :=
  { State.reset with i := 0x300, mem := [(0x300, 0x80)], disp := (Vector.replicate 32 0).set 0 1 }

/-- The first of the two draws clears the cell and collides. -/
def dotCleared : State :=
  writeV VF 1 (writeDisp (Vector.replicate 32 0) dotOverSetCell)

/-- The second sets it again, which is no collision. -/
def dotSetAgain : State :=
  writeV VF 0 (writeDisp dotOverSetCell.disp dotCleared)

theorem exec_drw_dotOverSetCell : exec (.drw 0 1 1) dotOverSetCell = .next dotCleared := rfl

theorem exec_drw_dotCleared : exec (.drw 0 1 1) dotCleared = .next dotSetAgain := rfl

/-- Refutes O40: the sprite has a set bit, and VF is 0 after the second draw. -/
theorem not_secondDrawCollidesWheneverABitIsSet : ¬ Obligations.SecondDrawCollidesWheneverABitIsSet := by
  intro claim
  have readable : SpriteReadable dotOverSetCell 1 := .inr (by decide)
  have collides := claim 0 1 1 dotOverSetCell dotCleared dotCleared dotSetAgain readable exec_drw_dotOverSetCell rfl rfl rfl rfl
    (fun _ _ => rfl) exec_drw_dotCleared
  have bit : ∃ r c, r < (1 : Nibble).toNat ∧ c < 8 ∧ (byteAt dotOverSetCell (dotOverSetCell.i.toNat + r)).getLsbD c = true :=
    ⟨0, 7, by decide, by decide, by decide⟩
  exact absurd (collides.2 bit) (by decide)

end Sys2Proof.Proofs
end

section
/-! The host operations of 60_exceptions.md R212 to R218 other than reset() and load_rom(), and the readouts of 10_state.md R37 and
60_exceptions.md R219. -/

namespace Sys2Proof.Proofs

open Sys2Proof Sys2Proof.Machine

variable {s : State} {k x : Reg} {p : Bool}

/-! ### tick_timers() -/

theorem applyOp_tickTimers (s : State) : applyOp .tickTimers s = .next (tickTimers s) := rfl

/-- A timer counts down and stops at 0 (60_exceptions.md R213). -/
theorem countDown_toNat (b : Byte) : (if b.toNat > 0 then b - 1 else b).toNat = b.toNat - 1 := by
  split
  case isTrue running => bv_omega
  case isFalse stopped => omega

theorem isSoundActive_tickTimers : isSoundActive (tickTimers s) = true ↔ 0 < s.st.toNat :=
  decide_eq_true_iff

theorem tickTimers_frame : tickTimers s =
    { s with dt := (tickTimers s).dt, st := (tickTimers s).st, soundActive := (tickTimers s).soundActive } := rfl

/-- Settles O50: each timer is counted down, and the signal is latched from the ST before it. -/
theorem tickCountsDownBothTimers : Obligations.TickCountsDownBothTimers := by
  intro s
  exact ⟨_, applyOp_tickTimers s, countDown_toNat s.dt, countDown_toNat s.st, isSoundActive_tickTimers, tickTimers_frame⟩

theorem exec_ldToSt (x : Reg) (s : State) : exec (.ldToSt x) s = .next (writeSt (readV s x) s) := rfl

theorem writeSt_frame (b : Byte) (s : State) : writeSt b s = { s with st := (writeSt b s).st } := rfl

theorem byte_pos_iff (b : Byte) : 0 < b.toNat ↔ b ≠ 0 := by
  rw [Nat.pos_iff_ne_zero, ne_eq, ne_eq, BitVec.toNat_eq]
  rfl

/-- Settles O42: the write leaves the signal, which the tick then latches from the value written. -/
theorem soundTimerWriteIsHeardAtTheTick : Obligations.SoundTimerWriteIsHeardAtTheTick := by
  intro x s
  refine ⟨decodeWord_encode (.ldToSt x), _, _, exec_ldToSt x s, rfl, writeSt_frame _ s, applyOp_tickTimers _, ?heard⟩
  rw [isSoundActive_tickTimers, writeSt_st, byte_pos_iff]

/-! ### set_key() -/

theorem applyOp_setKey (k : Reg) (p : Bool) (s : State) : applyOp (.setKey k.val p) s = .next (setKeyLevel k p s) :=
  dif_pos k.isLt

theorem applyOp_setKey_refused {code : Nat} (bad : 16 ≤ code) (p : Bool) (s : State) :
    applyOp (.setKey code p) s = .refused (.keyCodeOutOfRange code) :=
  dif_neg (Nat.not_lt_of_ge bad)

/-- A set_key() that answers a next state had a good code. -/
theorem key_of_applyOp_setKey {t : State} {code : Nat} (ht : applyOp (.setKey code p) s = .next t) :
    ∃ k : Reg, code = k.val ∧ t = setKeyLevel k p s := by
  by_cases bad : 16 ≤ code
  · cases (applyOp_setKey_refused bad p s).symm.trans ht
  · cases (applyOp_setKey ⟨code, by omega⟩ p s).symm.trans ht
    exact ⟨⟨code, by omega⟩, rfl, rfl⟩

/-- A new press while a wait is pending: the level, the code in the target, and the wait over (R216). -/
theorem setKeyLevel_of_press (released : s.keys[k.val] = false) (pending : s.wait = some x) : setKeyLevel k true s =
    writeWait none (writeV x (BitVec.ofNat 8 k.val) { s with keys := s.keys.set k.val true }) := by
  simp [setKeyLevel, resolveWait, released, pending]

/-- Every other key event records the level and does nothing else (R215). -/
theorem setKeyLevel_of_no_press (h : p = false ∨ s.keys[k.val] = true ∨ s.wait = none) :
    setKeyLevel k p s = { s with keys := s.keys.set k.val p } := by
  rcases h with released | held | idle
  · simp [setKeyLevel, released]
  · simp [setKeyLevel, held]
  · simp [setKeyLevel, resolveWait, idle]

/-- Everything a key event can do. -/
theorem setKeyLevel_cases (k : Reg) (p : Bool) (s : State) :
    (∃ x, p = true ∧ s.keys[k.val] = false ∧ s.wait = some x ∧ setKeyLevel k p s =
      writeWait none (writeV x (BitVec.ofNat 8 k.val) { s with keys := s.keys.set k.val true })) ∨
    setKeyLevel k p s = { s with keys := s.keys.set k.val p } := by
  by_cases h : p = false ∨ s.keys[k.val] = true ∨ s.wait = none
  · exact .inr (setKeyLevel_of_no_press h)
  · simp only [not_or, Bool.not_eq_false, Bool.not_eq_true] at h
    obtain ⟨rfl, released, waiting⟩ := h
    obtain ⟨x, pending⟩ := Option.ne_none_iff_exists'.1 waiting
    exact .inl ⟨x, rfl, released, pending, setKeyLevel_of_press released pending⟩

theorem setKeyLevel_keys (k : Reg) (p : Bool) (s : State) : (setKeyLevel k p s).keys = s.keys.set k.val p := by
  rcases setKeyLevel_cases k p s with ⟨x, rfl, -, -, press⟩ | level
  · rw [press]; rfl
  · rw [level]

theorem setKeyLevel_halted (k : Reg) (p : Bool) (s : State) : (setKeyLevel k p s).halted = s.halted := by
  rcases setKeyLevel_cases k p s with ⟨x, -, -, -, press⟩ | level
  · rw [press]; rfl
  · rw [level]

theorem key_code_toNat (k : Reg) : (BitVec.ofNat 8 k.val : Byte).toNat = k.val := by
  rw [BitVec.toNat_ofNat]; omega

/-- Settles O51: a good code is a key event, which resolves the wait on a new press only. -/
theorem setKeyRecordsAndResolves : Obligations.SetKeyRecordsAndResolves := by
  intro s code p
  refine ⟨fun bad => applyOp_setKey_refused bad p s, ?good⟩
  rintro k rfl
  refine ⟨_, applyOp_setKey k p s, fun j => ?level, ?press, fun h => ?noPress⟩
  case level => simp only [setKeyLevel_keys, Vector.getElem_set, Fin.ext_iff, eq_comm]
  case press =>
    rintro x rfl released pending
    rw [setKeyLevel_of_press released pending]
    refine ⟨rfl, ?_, fun j hj => ?_, rfl⟩
    · rw [readV_writeWait, readV_writeV_same, key_code_toNat]
    · rw [readV_writeWait, readV_writeV, if_neg hj]; rfl
  case noPress => rw [setKeyLevel_of_no_press h]

/-! ### The run state and set_paused() -/

/-- Settles O57: the three fields are tested in the order of R37. -/
theorem runStateByPriority : Obligations.RunStateByPriority := by
  intro s
  unfold runState
  cases halted : s.halted with
  | some r => simp
  | none =>
    cases paused : s.paused with
    | true => simp
    | false => cases waiting : s.wait <;> simp

theorem setPaused_eq_self (h : s.paused = p) : setPaused p s = s := by
  subst h; rfl

/-- Settles O53: only paused is written, and it is read only where no fault comes before it. -/
theorem pausingCancelsNothing : Obligations.PausingCancelsNothing := by
  intro s
  refine ⟨setPaused true s, setPaused false s, rfl, rfl, rfl, rfl, fun alive => ?_, fun unpaused => ?_⟩
  · exact (runStateByPriority _).2.1.2 ⟨alive, rfl⟩
  · rw [setPaused_eq_self unpaused]

/-! ### pixel_at() -/

theorem pixel_eq_getElem (d : Vector (BitVec 64) 32) (px : Nat) {py : Nat} (h : py < 32) :
    pixel d px py = d[py].getLsbD px := by
  rw [pixel, List.getD_eq_getElem _ _ (by simpa using h), Vector.getElem_toList]

/-- Settles O58: 64 cells a row, so division and remainder by 64 give back the row and the column. -/
theorem pixelAtReadsTheRowMajorCell : Obligations.PixelAtReadsTheRowMajorCell := by
  intro s px py
  refine ⟨rfl, ?_⟩
  have column : (py.val * 64 + px.val) % 64 = px.val := by omega
  have row : (py.val * 64 + px.val) / 64 = py.val := by omega
  rw [pixelAt, dispCell, column, row, pixel_eq_getElem s.disp px.val py.isLt]

end Sys2Proof.Proofs
end

section
/-! reset(), load_rom() and the state at creation (70_reset_and_hazards.md R250 to R256). -/

namespace Sys2Proof.Proofs

open Sys2Proof Sys2Proof.Machine

variable {s : State} {c : Config} {a : Nat}

/-! ### The reset contents of memory -/

theorem unlisted_font (above : c.fontBase.val ≤ a) (h : a - c.fontBase.val < 80) :
    Memory.unlisted c a = c.fontData[a - c.fontBase.val] := by
  rw [Memory.unlisted, if_pos above, List.getD_eq_getElem _ _ (by simpa using h), Vector.getElem_toList]

theorem unlisted_outside_font (h : a < c.fontBase.val ∨ c.fontBase.val + 80 ≤ a) : Memory.unlisted c a = 0 := by
  unfold Memory.unlisted
  split
  case isTrue above => exact List.getD_eq_default _ _ (by rw [Vector.length_toList]; omega)
  case isFalse => rfl

theorem byteAt_resetOp (s : State) (a : Nat) : byteAt (resetOp s) a = Memory.unlisted s.cfg a := rfl

/-! ### reset() -/

theorem applyOp_reset (s : State) : applyOp .reset s = .next (resetOp s) := rfl

theorem readV_resetOp (s : State) (k : Reg) : readV (resetOp s) k = 0 :=
  Vector.getElem_replicate _

/-- Settles O54: every field of `resetOp` is R42's value, or the old one, and memory reads as its reset contents. -/
theorem resetGivesEveryFieldItsValue : Obligations.ResetGivesEveryFieldItsValue := by
  intro s
  exact ⟨_, applyOp_reset s, readV_resetOp s, rfl, rfl, rfl, fun _ _ => Vector.getElem_replicate _,
    fun a _ above h => unlisted_font above h, fun a _ outside => unlisted_outside_font outside,
    fun px py _ _ => pixel_clear px py, rfl, fun _ _ => Vector.getElem_replicate _,
    rfl, rfl, rfl, rfl, rfl, rfl, rfl, rfl, rfl, rfl, rfl⟩

/-! ### load_rom() -/

theorem applyOp_loadRom (bs : List Byte) (s : State) : applyOp (.loadRom bs) s = .next (loadRom bs s) := rfl

/-- A ROM that fits is the reset state with its bytes; a longer one is cut and logged. -/
theorem loadRom_of_le {bs : List Byte} (h : bs.length ≤ 3584) :
    loadRom bs s = { resetOp s with mem := romCells s.cfg 0x200 (bs.take 3584) } :=
  if_neg (by simpa [maxRom] using h)

theorem loadRom_of_gt {bs : List Byte} (h : 3584 < bs.length) : loadRom bs s =
    logEvent (.romTruncated bs.length) { resetOp s with mem := romCells s.cfg 0x200 (bs.take 3584) } :=
  if_pos h

theorem loadRom_mem (bs : List Byte) (s : State) : (loadRom bs s).mem = romCells s.cfg 0x200 (bs.take 3584) := by
  unfold loadRom; split <;> rfl

/-- Over the reset state, load_rom() writes memory and the diagnostics log. -/
theorem loadRom_frame (bs : List Byte) (s : State) :
    loadRom bs s = { resetOp s with mem := (loadRom bs s).mem, diagLog := (loadRom bs s).diagLog } := by
  unfold loadRom; split <;> rfl

theorem loadRom_cfg (bs : List Byte) (s : State) : (loadRom bs s).cfg = s.cfg := by
  rw [loadRom_frame]; rfl

theorem loadRom_halted (bs : List Byte) (s : State) : (loadRom bs s).halted = none := by
  rw [loadRom_frame]; rfl

theorem byteAt_loadRom (bs : List Byte) (s : State) (a : Nat) : byteAt (loadRom bs s) a =
    if 0x200 ≤ a ∧ a < 0x200 + min 3584 bs.length then (bs.take 3584).getD (a - 0x200) 0 else Memory.unlisted s.cfg a := by
  rw [byteAt, loadRom_mem, loadRom_cfg, get_romCells, List.length_take]

/-- Settles O55: memory is the ROM's cells over the reset contents, and the log grows only for a ROM that is cut. -/
theorem loadRomCopiesAfterAReset : Obligations.LoadRomCopiesAfterAReset := by
  intro s b
  refine ⟨_, _, applyOp_loadRom b s, applyOp_reset s, fun k hk fits => ?copied, fun a outside => ?untouched, fun h => ?whole,
    fun h => ?cut, loadRom_frame b s⟩
  case copied =>
    rw [byteAt_loadRom, if_pos (by omega), Nat.add_sub_cancel_left, List.getD_eq_getElem _ _ (by simp; omega), List.getElem_take]
  case untouched => rw [byteAt_loadRom, if_neg (by omega), byteAt_resetOp]
  case whole => rw [loadRom_of_le h]
  case cut => rw [loadRom_of_gt h]; rfl

/-! ### Creation -/

/-- Settles O56: a fixed state. -/
theorem creationStateIsRunning : Obligations.CreationStateIsRunning :=
  ⟨rfl, rfl, rfl, rfl, by decide⟩

end Sys2Proof.Proofs
end

section
/-! What ends a pending wait, and what ends Halted-on-error (60_exceptions.md R205, R216, R221). -/

namespace Sys2Proof.Proofs

open Sys2Proof Sys2Proof.Machine

variable {s t : State} {op : HostOp} {r : FaultRecord} {x : Reg}

theorem cycle_of_waiting (pending : s.wait = some x) : cycle s = .next s :=
  cycle_gated (gated_eq_true.2 (.inr (.inr (by simp [pending]))))

theorem cycle_of_halted (halted : s.halted = some r) : cycle s = .next s :=
  cycle_gated (gated_eq_true.2 (.inl (by simp [halted])))

/-! ### A pending wait -/

/-- The operations that end a pending wait, one by one. -/
theorem applyOp_ends_wait (pending : s.wait = some x) (ht : applyOp op s = .next t) (ended : t.wait ≠ some x) :
    op = .reset ∨ (∃ bytes, op = .loadRom bytes) ∨
      ∃ k : Fin 16, op = .setKey k.val true ∧ s.keys[k.val] = false ∧ t.wait = none ∧ (readV t x).toNat = k.val := by
  cases op with
  | reset => exact .inl rfl
  | loadRom bytes => exact .inr (.inl ⟨bytes, rfl⟩)
  | cycle =>
    cases (cycle_of_waiting pending).symm.trans ht
    exact absurd pending ended
  | tickTimers | markClean | setPaused =>
    cases ht
    exact absurd pending ended
  | setKey code p =>
    obtain ⟨k, rfl, rfl⟩ := key_of_applyOp_setKey ht
    rcases setKeyLevel_cases k p s with ⟨x', rfl, released, waiting, press⟩ | level
    · cases pending.symm.trans waiting
      refine .inr (.inr ⟨k, rfl, released, ?_, ?_⟩)
      · rw [press]; rfl
      · rw [press, readV_writeWait, readV_writeV_same, key_code_toNat]
    · rw [level] at ended
      exact absurd pending ended

/-- Settles O44: with nothing scheduled the gate keeps the wait, and of the operations three end it. -/
theorem waitEndsOnlyByANewPress : Obligations.WaitEndsOnlyByANewPress := by
  intro s t x pending ht ended
  cases scheduled : s.schedule with
  | nil =>
    cases (cycle_of_waiting pending).symm.trans ((step_of_empty scheduled).symm.trans ht)
    exact absurd pending ended
  | cons op rest =>
    rw [step_of_cons scheduled] at ht
    refine ⟨rest, ?_⟩
    rcases applyOp_ends_wait (s := { s with schedule := rest }) pending ht ended with
      rfl | ⟨bytes, rfl⟩ | ⟨k, rfl, released, done, code⟩
    · exact .inl rfl
    · exact .inr (.inl ⟨bytes, rfl⟩)
    · exact .inr (.inr ⟨k, rfl, released, done, code⟩)

/-! ### Halted-on-error -/

/-- No operation but reset() and load_rom() leaves the halted state. -/
theorem applyOp_keeps_halted (halted : s.halted = some r) (noReset : op ≠ .reset) (noLoad : ∀ bytes, op ≠ .loadRom bytes)
    (ht : applyOp op s = .next t) : t.halted = some r := by
  cases op with
  | reset => exact absurd rfl noReset
  | loadRom bytes => exact absurd rfl (noLoad bytes)
  | cycle =>
    cases (cycle_of_halted halted).symm.trans ht
    exact halted
  | tickTimers | markClean | setPaused =>
    cases ht
    exact halted
  | setKey code p =>
    obtain ⟨k, rfl, rfl⟩ := key_of_applyOp_setKey ht
    rw [setKeyLevel_halted, halted]

/-- Settles O49: with nothing scheduled the step is a gated cycle, and of the operations two leave the halted state. -/
theorem haltedUntilResetOrLoad : Obligations.HaltedUntilResetOrLoad := by
  intro s t r halted ht
  cases scheduled : s.schedule with
  | nil =>
    cases (cycle_of_halted halted).symm.trans ((step_of_empty scheduled).symm.trans ht)
    refine ⟨?_, fun _ _ => halted, fun _ => by rw [List.tail_nil, ← scheduled]⟩
    rintro (⟨_, hop⟩ | ⟨_, _, hop⟩)
    · cases hop
    · cases hop
  | cons op rest =>
    rw [step_of_cons scheduled] at ht
    refine ⟨?leaves, fun noReset noLoad => ?stays, ?noOp⟩
    case leaves =>
      rintro (⟨_, hop⟩ | ⟨bytes, _, hop⟩)
      · cases hop; cases ht; rfl
      · cases hop; cases ht; exact loadRom_halted bytes _
    case stays =>
      exact applyOp_keeps_halted (s := { s with schedule := rest }) halted (fun hop => noReset ⟨rest, by rw [hop]⟩)
        (fun bytes hop => noLoad ⟨bytes, rest, by rw [hop]⟩) ht
    case noOp =>
      rintro (hop | ⟨_, hop⟩)
      · cases hop
      · cases hop
        cases (cycle_of_halted (s := { s with schedule := rest }) halted).symm.trans ht
        rfl

end Sys2Proof.Proofs
end

section
/-! Everything an instruction can do, said once: the effects of the execute phase. -/

namespace Sys2Proof.Proofs

open Sys2Proof Sys2Proof.Machine

variable {i : Instr} {s t : State}

/-- The effects of an execute phase from `s`, by the instruction. Each is the next state with what the statements need to know of the
values written: the bounds of 10_state.md R41, and over a fault what is not freed (60_exceptions.md R204). -/
inductive Effect (s : State) : Instr → State → Prop
  /-- The destination register, after a draw for RND. -/
  | register {i : Instr} {x : Reg} (b : Byte) (n : Nat) (named : destination i = some x) :
      Effect s i (writeV x b { s with draws := n })
  /-- VF and then the destination register. -/
  | flagged {i : Instr} {x : Reg} (b f : Byte) (named : destination i = some x) (flags : writesFlag i = true) :
      Effect s i (writeV x b (writeV VF f s))
  /-- PC, after a draw for a skip on no key. -/
  | control {i : Instr} (w : Word) (n : Nat) (bound : s.pc.toNat ≤ 0x1000 → w.toNat ≤ 0x10FE) :
      Effect s i (writePc w { s with draws := n })
  | index {i : Instr} (w : Word) (bound : w.toNat ≤ 0xFFF)
      (named : (∃ nnn, i = .ldI nnn) ∨ (∃ x, i = .addI x) ∨ ∃ x, i = .ldFont x) : Effect s i (writeI w s)
  /-- ADD I, Vx past 0xFFF. -/
  | indexFlag (x : Reg) (w : Word) (bound : w.toNat ≤ 0xFFF) : Effect s (.addI x) (writeI w (writeV VF 1 s))
  | push (nnn : Addr) (room : s.sp.val < 16) : Effect s (.call nnn) (writePc (addrWord nnn) (pushed s room))
  | overflow (nnn : Addr) (sp : Fin 17) (stack : Vector Word 16) (full : s.sp.val = 16)
      (bound : ∀ (k : Nat) (_ : k < 16), k < sp.val → stack[k].toNat ≤ 0x1000) :
      Effect s (.call nnn) (raiseExec (.stackOverflow 16) { s with sp := sp, stack := stack })
  | pop (used : s.sp.val ≠ 0) : Effect s .ret (popped s)
  | underflow (sp : Fin 17) (empty : s.sp.val = 0) : Effect s .ret (raiseExec (.stackUnderflow 0) { s with sp := sp })
  | clear : Effect s .cls (writeDisp (Vector.replicate 32 0) s)
  | draw (x y : Reg) (n : Nibble) (f : Byte) (d : Vector (BitVec 64) 32) :
      Effect s (.drw x y n) (writeV VF f (writeDisp d s))
  | drawFault (x y : Reg) (n : Nibble) (a : Nat) (v : Vector Byte 16) (d : Vector (BitVec 64) 32) (b : Bool)
      (outside : 4096 ≤ a) (others : ∀ k : Reg, k ≠ 15 → v[k.val] = s.v[k.val]) (stays : s.dirty = true → b = true)
      (cells : ∀ px py, ¬ InSpriteBox s x y n px py → pixel d px py = pixel s.disp px py) :
      Effect s (.drw x y n) (raiseExec (.memOutOfBounds .read a) { s with disp := d, dirty := b, v := v })
  | delay (x : Reg) (b : Byte) : Effect s (.ldToDt x) (writeDt b s)
  | sound (x : Reg) (b : Byte) : Effect s (.ldToSt x) (writeSt b s)
  | wait (x : Reg) : Effect s (.ldKey x) (writeWait (some x) s)
  | store {i : Instr} (m : Memory) (named : (∃ x, i = .ldBcd x) ∨ ∃ x, i = .storeRegs x)
      (canonical : Memory.wf s.cfg s.mem = true → Memory.wf s.cfg m = true) : Effect s i { s with mem := m }
  | storeFault {i : Instr} (m : Memory) (a : Nat) (named : (∃ x, i = .ldBcd x) ∨ ∃ x, i = .storeRegs x)
      (outside : 4096 ≤ a) (canonical : Memory.wf s.cfg s.mem = true → Memory.wf s.cfg m = true)
      (others : SameBytesBut (fun c => s.i.toNat ≤ c ∧ c < s.i.toNat + 16) s { s with mem := m }) :
      Effect s i (raiseExec (.memOutOfBounds .write a) { s with mem := m })
  | load (x : Reg) (v : Vector Byte 16) (others : ∀ k : Reg, x < k → v[k.val] = s.v[k.val]) :
      Effect s (.loadRegs x) { s with v := v }
  | loadFault (x : Reg) (a : Nat) (v : Vector Byte 16) (outside : 4096 ≤ a)
      (others : ∀ k : Reg, x < k → v[k.val] = s.v[k.val]) :
      Effect s (.loadRegs x) (raiseExec (.memOutOfBounds .read a) { s with v := v })

/-! ### The shared operations as effects -/

theorem skipIf_eq_writePc (c : Bool) (s : State) : skipIf c s = writePc (if c = true then s.pc + 2 else s.pc) s := by
  cases c <;> rfl

/-- A skip moves PC by 2 at most. -/
theorem skip_effect (c : Bool) (n : Nat) : Effect s i (skipIf c { s with draws := n }) := by
  rw [skipIf_eq_writePc]
  refine .control _ n fun bound => ?_
  split
  case isTrue => bv_omega
  case isFalse => exact bound.trans (by decide)

theorem keySkip_effect (c : Bool) (b : Byte) : Effect s i (skipIf c (keyState b s).2) := by
  rw [keyState_frame]
  exact skip_effect c _

/-- A store at I of a few bytes is one of the two memory effects. -/
theorem storeAtI_effect {bs : List Byte} (nonempty : bs ≠ []) (few : bs.length ≤ 16)
    (named : (∃ x, i = .ldBcd x) ∨ ∃ x, i = .storeRegs x) : Effect s i (storeAtI bs s) := by
  by_cases fits : s.i.toNat + bs.length ≤ 4096
  · rw [storeAtI_ok fits]
    have canonical := setBlock_wf s.i.toNat bs s fits
    rw [setBlock_frame] at canonical ⊢
    exact .store _ named canonical
  · have past : 4096 < s.i.toNat + bs.length := by omega
    rw [storeAtI_error past nonempty]
    have canonical := freeBlock_wf s.i.toNat bs.length s
    have others (c : Nat) (hc : ¬ (s.i.toNat ≤ c ∧ c < s.i.toNat + 16)) :
        byteAt (freeBlock s.i.toNat bs.length s) c = byteAt s c := byteAt_freeBlock_other _ _ _ s (by omega)
    rw [freeBlock_frame] at canonical others ⊢
    exact .storeFault _ _ named (le_max_right _ _) canonical others

theorem call_effect (nnn : Addr) (s : State) : ∃ t, exec (.call nnn) s = .next t ∧ Effect s (.call nnn) t := by
  by_cases room : s.sp.val < 16
  · exact ⟨_, exec_call_of_room nnn room, .push nnn room⟩
  · have full : s.sp.val = 16 := by omega
    refine ⟨_, exec_call_of_full nnn full, .overflow nnn _ _ full fun k hk below => ?_⟩
    rw [Vector.getElem_ofFn]
    exact freeSlot_le _ _ ⟨k, hk⟩ below

theorem ret_effect (s : State) : ∃ t, exec .ret s = .next t ∧ Effect s .ret t := by
  by_cases empty : s.sp.val = 0
  · exact ⟨_, exec_ret_of_empty empty, .underflow _ empty⟩
  · exact ⟨_, exec_ret_of_used empty, .pop empty⟩

theorem drw_effect (x y : Reg) (n : Nibble) (s : State) : ∃ t, exec (.drw x y n) s = .next t ∧ Effect s (.drw x y n) t := by
  by_cases readable : SpriteReadable s n
  · exact ⟨_, exec_drw_of_readable readable, .draw x y n _ _⟩
  · exact ⟨_, exec_drw_of_unreadable readable, .drawFault x y n _ _ _ _ (le_max_right _ _)
      (fun _ hk => readV_freeDrawTargets x y n s hk) (dirty_freeDrawTargets x y n s)
      (fun _ _ outside => pixel_freeDrawTargets x y n s outside)⟩

theorem addI_effect (x : Reg) (s : State) : ∃ t, exec (.addI x) s = .next t ∧ Effect s (.addI x) t := by
  by_cases within : s.i.toNat + (readV s x).toNat ≤ 0xFFF
  · refine ⟨_, exec_addI_of_le x within, .index _ ?_ (.inr (.inl ⟨x, rfl⟩))⟩
    rw [BitVec.toNat_ofNat]; omega
  · refine ⟨_, exec_addI_of_gt x (by omega), .indexFlag x _ ?_⟩
    rw [BitVec.toNat_ofNat]; omega

theorem loadRegs_effect (x : Reg) (s : State) : ∃ t, exec (.loadRegs x) s = .next t ∧ Effect s (.loadRegs x) t := by
  have above {k : Reg} (hk : x < k) : ¬ k.val < x.val + 1 := fun h => Nat.not_lt_of_ge (Nat.le_of_lt_succ h) hk
  by_cases fits : s.i.toNat + x.val < 4096
  · have others (k : Reg) (hk : x < k) := (readV_loaded (x.val + 1) k s).trans (if_neg (above hk))
    refine ⟨_, exec_loadRegs_of_lt x fits, ?_⟩
    rw [writeRegsFrom_frame]
    exact .load x _ others
  · have others (k : Reg) (hk : x < k) := (readV_freeRegs (x.val + 1) s k).trans (if_neg (above hk))
    exact ⟨_, exec_loadRegs_of_ge x (by omega), .loadFault x _ _ (le_max_right _ _) others⟩

/-! ### Every instruction -/

/-- Every instruction answers a next state by one of its effects. -/
theorem exec_effect (i : Instr) (s : State) : ∃ t, exec i s = .next t ∧ Effect s i t := by
  cases i
  case ldImm | addImm | ldReg | orReg | andReg | xorReg | ldFromDt => exact ⟨_, rfl, .register _ s.draws rfl⟩
  case rnd => exact ⟨_, rfl, .register _ (s.draws + 1) rfl⟩
  case addReg | sub | shr | subn | shl => exact ⟨_, rfl, .flagged _ _ rfl rfl⟩
  case seImm | sneImm | seReg | sneReg => exact ⟨_, rfl, skip_effect _ s.draws⟩
  case skp | sknp => exact ⟨_, rfl, keySkip_effect _ _⟩
  case jp nnn =>
    refine ⟨_, rfl, .control _ s.draws fun _ => ?_⟩
    rw [addrWord_toNat]; omega
  case jpV0 nnn =>
    refine ⟨_, rfl, .control _ s.draws fun _ => ?_⟩
    rw [offsetTarget_toNat]; omega
  case call nnn => exact call_effect nnn s
  case ret => exact ret_effect s
  case cls => exact ⟨_, rfl, .clear⟩
  case drw x y n => exact drw_effect x y n s
  case ldI nnn =>
    refine ⟨_, rfl, .index _ ?_ (.inl ⟨nnn, rfl⟩)⟩
    rw [addrWord_toNat]; omega
  case ldFont x =>
    refine ⟨_, rfl, .index _ ?_ (.inr (.inr ⟨x, rfl⟩))⟩
    rw [fontAddr_toNat]; omega
  case addI x => exact addI_effect x s
  case ldBcd x => exact ⟨_, rfl, storeAtI_effect (List.cons_ne_nil _ _) (by rw [digits_length]; decide) (.inl ⟨x, rfl⟩)⟩
  case storeRegs x =>
    have len := regBlock_length s x
    exact ⟨_, rfl, storeAtI_effect (List.ne_nil_of_length_eq_add_one len) (by omega) (.inr ⟨x, rfl⟩)⟩
  case loadRegs x => exact loadRegs_effect x s
  case ldToDt x => exact ⟨_, rfl, .delay x _⟩
  case ldToSt x => exact ⟨_, rfl, .sound x _⟩
  case ldKey x => exact ⟨_, rfl, .wait x⟩

theorem effect_of_exec (ht : exec i s = .next t) : Effect s i t := by
  obtain ⟨t', ht', effect⟩ := exec_effect i s
  cases ht.symm.trans ht'
  exact effect

end Sys2Proof.Proofs
end

section
/-! What no other instruction writes, and where faults come from (10_state.md R20 to R38, 60_exceptions.md R200 to R204): each read
off the effects of the execute phase. -/

namespace Sys2Proof.Proofs

open Sys2Proof Sys2Proof.Machine

variable {i : Instr} {s t : State}

/-! ### The fields, one by one -/

theorem Effect.index_named (h : Effect s i t) (changed : t.i ≠ s.i) :
    (∃ nnn, i = .ldI nnn) ∨ (∃ x, i = .addI x) ∨ ∃ x, i = .ldFont x := by
  cases h with
  | index w bound named => exact named
  | indexFlag x => exact .inr (.inl ⟨x, rfl⟩)
  | _ => exact absurd rfl changed

theorem Effect.stack_named (h : Effect s i t) (changed : t.stack ≠ s.stack) : ∃ nnn, i = .call nnn := by
  cases h with
  | push nnn => exact ⟨nnn, rfl⟩
  | overflow nnn => exact ⟨nnn, rfl⟩
  | _ => exact absurd rfl changed

theorem Effect.sp_named (h : Effect s i t) (changed : t.sp ≠ s.sp) : (∃ nnn, i = .call nnn) ∨ i = .ret := by
  cases h with
  | push nnn => exact .inl ⟨nnn, rfl⟩
  | overflow nnn => exact .inl ⟨nnn, rfl⟩
  | pop | underflow => exact .inr rfl
  | _ => exact absurd rfl changed

theorem Effect.mem_named (h : Effect s i t) (changed : t.mem ≠ s.mem) : (∃ x, i = .ldBcd x) ∨ ∃ x, i = .storeRegs x := by
  cases h with
  | store m named => exact named
  | storeFault m a named => exact named
  | _ => exact absurd rfl changed

theorem Effect.disp_named (h : Effect s i t) (changed : t.disp ≠ s.disp) : i = .cls ∨ ∃ x y n, i = .drw x y n := by
  cases h with
  | clear => exact .inl rfl
  | draw x y n => exact .inr ⟨x, y, n, rfl⟩
  | drawFault x y n => exact .inr ⟨x, y, n, rfl⟩
  | _ => exact absurd rfl changed

theorem Effect.dirty_named (h : Effect s i t) (changed : t.dirty ≠ s.dirty) : i = .cls ∨ ∃ x y n, i = .drw x y n := by
  cases h with
  | clear => exact .inl rfl
  | draw x y n => exact .inr ⟨x, y, n, rfl⟩
  | drawFault x y n => exact .inr ⟨x, y, n, rfl⟩
  | _ => exact absurd rfl changed

theorem Effect.dirty_stays (h : Effect s i t) (dirty : s.dirty = true) : t.dirty = true := by
  cases h with
  | clear | draw => rfl
  | drawFault x y n a v d b outside others stays => exact stays dirty
  | _ => exact dirty

theorem Effect.dt_named (h : Effect s i t) (changed : t.dt ≠ s.dt) : ∃ x, i = .ldToDt x := by
  cases h with
  | delay x => exact ⟨x, rfl⟩
  | _ => exact absurd rfl changed

theorem Effect.st_named (h : Effect s i t) (changed : t.st ≠ s.st) : ∃ x, i = .ldToSt x := by
  cases h with
  | sound x => exact ⟨x, rfl⟩
  | _ => exact absurd rfl changed

theorem Effect.wait_named (h : Effect s i t) (changed : t.wait ≠ s.wait) : ∃ x, i = .ldKey x := by
  cases h with
  | wait x => exact ⟨x, rfl⟩
  | _ => exact absurd rfl changed

/-- The fields no instruction writes. -/
theorem Effect.unwritten (h : Effect s i t) : t.keys = s.keys ∧ t.soundActive = s.soundActive ∧ t.paused = s.paused ∧
    t.diagLog = s.diagLog ∧ t.cfg = s.cfg ∧ t.schedule = s.schedule := by
  cases h
  all_goals exact ⟨rfl, rfl, rfl, rfl, rfl, rfl⟩

/-- Settles O45: field by field over the effects. -/
theorem onlyNamedInstructionsWriteEachField : Obligations.OnlyNamedInstructionsWriteEachField := by
  intro i s t ht
  have h := effect_of_exec ht
  exact ⟨h.index_named, h.stack_named, h.sp_named, h.mem_named, h.disp_named, h.dirty_named, h.dirty_stays, h.dt_named,
    h.st_named, h.wait_named, h.unwritten⟩

/-! ### Registers -/

/-- A register that changed under a register write is the one written. -/
theorem eq_of_readV_writeV_ne {x k : Reg} {b : Byte} (changed : readV (writeV x b s) k ≠ readV s k) : k = x := by
  by_contra hk
  exact changed (by rw [readV_writeV, if_neg hk])

/-- Settles O46: the effects that write registers are the destination's, the flag's and the load's. -/
theorem registersChangeOnlyAsNamed : Obligations.RegistersChangeOnlyAsNamed := by
  intro i s t k ht changed
  cases effect_of_exec ht with
  | @register _ x b n named =>
    cases eq_of_readV_writeV_ne (s := { s with draws := n }) changed
    exact .inl named
  | @flagged _ x b f named flags =>
    by_cases dest : k = x
    · exact .inl (dest ▸ named)
    · rw [readV_writeV, if_neg dest] at changed
      exact .inr (.inr ⟨eq_of_readV_writeV_ne changed, flags⟩)
  | indexFlag => exact .inr (.inr ⟨eq_of_readV_writeV_ne changed, rfl⟩)
  | draw => exact .inr (.inr ⟨eq_of_readV_writeV_ne changed, rfl⟩)
  | drawFault x y n a v d b outside others => exact .inr (.inr ⟨by_contra fun hk => changed (others k hk), rfl⟩)
  | load x v others => exact .inr (.inl ⟨x, rfl, not_lt.1 fun above => changed (others k above)⟩)
  | loadFault x a v outside others => exact .inr (.inl ⟨x, rfl, not_lt.1 fun above => changed (others k above)⟩)
  | _ => exact absurd rfl changed

/-! ### Faults -/

/-- Settles O47: of the effects five enter a fault, each with its cause. -/
theorem faultsComeOnlyFromTheirCauses : Obligations.FaultsComeOnlyFromTheirCauses := by
  intro i s t r alive ht halted
  cases effect_of_exec ht with
  | overflow nnn sp stack full => cases halted; exact ⟨rfl, rfl, full, nnn, rfl⟩
  | underflow sp empty => cases halted; exact ⟨rfl, rfl, empty, rfl⟩
  | drawFault x y n a v d b outside => cases halted; exact ⟨rfl, outside, .inl ⟨x, y, n, rfl⟩⟩
  | loadFault x a v outside => cases halted; exact ⟨rfl, outside, .inr ⟨x, rfl⟩⟩
  | storeFault m a named outside => cases halted; exact ⟨rfl, outside, named⟩
  | _ => cases alive.symm.trans halted

end Sys2Proof.Proofs
end

section
/-! What a cycle that faults leaves alone (60_exceptions.md R204). -/

namespace Sys2Proof.Proofs

open Sys2Proof Sys2Proof.Machine

variable {i : Instr} {s t : State} {r : FaultRecord}

/-- What a fault keeps from `s` to `t`, where `known` is the instruction that faulted, or none where the fetch did. -/
structure FaultKeeps (known : Option Instr) (s t : State) : Prop where
  index : t.i = s.i
  dirty : s.dirty = true → t.dirty = true
  cells : ∀ px py, (∀ x y n, known = some (.drw x y n) → ¬ InSpriteBox s x y n px py) →
    pixel t.disp px py = pixel s.disp px py
  keys : t.keys = s.keys
  dt : t.dt = s.dt
  st : t.st = s.st
  wait : t.wait = s.wait
  soundActive : t.soundActive = s.soundActive
  paused : t.paused = s.paused
  diagLog : t.diagLog = s.diagLog
  bytes : SameBytesBut (fun a => s.i.toNat ≤ a ∧ a < s.i.toNat + 16) s t

/-- A fault of the fetch, and one of an instruction that has freed registers, SP or the stack, keeps all of it. -/
theorem faultKeeps_raise (known : Option Instr) (f : Fault) (a : Word) (s : State) (v : Vector Byte 16) (sp : Fin 17)
    (stack : Vector Word 16) : FaultKeeps known s (raise f a { s with v := v, sp := sp, stack := stack }) :=
  ⟨rfl, id, fun _ _ _ => rfl, rfl, rfl, rfl, rfl, rfl, rfl, rfl, fun _ _ => rfl⟩

/-- The effects that enter a fault keep what R204 says. -/
theorem Effect.faultKeeps (h : Effect s i t) (alive : s.halted = none) (halted : t.halted = some r) :
    FaultKeeps (some i) s t := by
  cases h with
  | overflow nnn sp stack => exact faultKeeps_raise _ _ _ s s.v sp stack
  | underflow sp => exact faultKeeps_raise _ _ _ s s.v sp s.stack
  | loadFault x a v => exact faultKeeps_raise _ _ _ s v s.sp s.stack
  | drawFault x y n a v d b outside others stays cells =>
    exact ⟨rfl, stays, fun px py free => cells px py (free x y n rfl), rfl, rfl, rfl, rfl, rfl, rfl, rfl, fun _ _ => rfl⟩
  | storeFault m a named outside canonical others =>
    exact ⟨rfl, id, fun _ _ _ => rfl, rfl, rfl, rfl, rfl, rfl, rfl, rfl, others⟩
  | _ => cases alive.symm.trans halted

/-- Everything a due cycle that faults can do: the fetch faults, or the execute phase of the instruction at PC does. -/
theorem fault_cases_of_due (due : CycleDue s) (ht : step s = .next t) (halted : t.halted = some r) :
    (∃ f, t = raise f s.pc s) ∨
    ∃ i, decodeWord (wordAtPc s) = some i ∧ exec i (writePc (s.pc + 2) s) = .next t := by
  by_cases inside : s.pc.toNat ≤ 0xFFE
  · right
    cases known : decodeWord (wordAtPc s) with
    | none =>
      rw [step_of_empty due.noneScheduled, cycle_of_unrecognised due.gated_false inside known] at ht
      cases ht
      cases due.notHalted.symm.trans halted
    | some i =>
      obtain ⟨t', ht'⟩ := exec_next i (writePc (s.pc + 2) s)
      rw [step_of_recognised due inside known ht'] at ht
      cases ht
      refine ⟨i, rfl, ?_⟩
      split at halted
      case isTrue faulted => rw [if_pos faulted, ht']
      case isFalse completed =>
        rw [recordOpcode_halted] at halted
        rw [halted] at completed
        exact absurd rfl completed
  · left
    rw [step_of_empty due.noneScheduled, cycle_of_fetch_fault due.gated_false (by omega)] at ht
    cases ht
    exact ⟨_, rfl⟩

/-- Settles O48: the fault is the fetch's, at PC, or the execute phase's, which records PC + 2 - 2. -/
theorem faultLeavesUnrelatedStateAlone : Obligations.FaultLeavesUnrelatedStateAlone := by
  intro s t r due ht halted
  obtain ⟨fetched, keeps⟩ : r.fetchedAt = s.pc ∧ FaultKeeps (decodeWord (wordAtPc s)) s t := by
    rcases fault_cases_of_due due ht halted with ⟨f, rfl⟩ | ⟨i, known, hexec⟩
    · cases halted
      exact ⟨rfl, faultKeeps_raise _ f s.pc s s.v s.sp s.stack⟩
    · have alive : (writePc (s.pc + 2) s).halted = none := due.notHalted
      have fetched := (faultsComeOnlyFromTheirCauses i _ t r alive hexec halted).1
      rw [writePc_pc, BitVec.add_sub_cancel] at fetched
      obtain ⟨index, dirty, cells, keys, dt, st, wait, soundActive, paused, diagLog, bytes⟩ :=
        (effect_of_exec hexec).faultKeeps alive halted
      exact ⟨fetched, known ▸ ⟨index, dirty, cells, keys, dt, st, wait, soundActive, paused, diagLog, bytes⟩⟩
  exact ⟨fetched, keeps.index, keeps.dirty, fun px py _ _ => keeps.cells px py, keeps.keys, keeps.dt, keeps.st, keeps.wait,
    keeps.soundActive, keeps.paused, keeps.diagLog, keeps.bytes⟩

end Sys2Proof.Proofs
end

section
/-! The invariant of 10_state.md R41 holds at creation and is kept by every step. -/

namespace Sys2Proof.Proofs

open Sys2Proof Sys2Proof.Machine

variable {i : Instr} {s t : State} {op : HostOp}

/-- Settles O59: nothing is listed, no address is pushed, and PC is the entry point. -/
theorem invariantHoldsAtReset : Obligations.InvariantHoldsAtReset where
  memory := Memory.nil_wf _
  index := by decide
  counter := by decide
  notHaltedAndWaiting := by decide
  returns k h _ := by rw [State.reset, Vector.getElem_replicate]; decide

/-! ### The execute phase -/

/-- A fault entry keeps the invariant from a state that does not wait: the free PC has its bound, and what the instruction freed
before it has to have its own. -/
theorem inv_raise {f : Fault} {a : Word} (memory : Memory.wf s.cfg s.mem = true) (index : s.i.toNat ≤ 0xFFF)
    (idle : s.wait = none) (returns : ∀ (k : Nat) (h : k < 16), k < s.sp.val → s.stack[k].toNat ≤ 0x1000) :
    Inv (raise f a s) where
  memory := memory
  index := index
  counter := raise_pc_le f a s
  notHaltedAndWaiting := fun ⟨_, waiting⟩ => by rw [raise_wait, idle] at waiting; cases waiting
  returns k h live := live.elim (returns k h) (fun alive => by cases alive)

/-- Every effect of an execute phase keeps the invariant: the fetch left PC at 0x1000 at most, and every slot has its bound, since
the block is not halted. -/
theorem Effect.inv (h : Effect s i t) (hs : Inv s) (alive : s.halted = none) (idle : s.wait = none)
    (low : s.pc.toNat ≤ 0x1000) : Inv t := by
  obtain ⟨memory, index, counter, exclusive, returns⟩ := hs
  have slots (k : Nat) (hk : k < 16) : s.stack[k].toNat ≤ 0x1000 := returns k hk (.inr alive)
  cases h with
  | register | flagged | clear | draw | delay | sound | load => exact ⟨memory, index, counter, exclusive, returns⟩
  | control w n bound => exact ⟨memory, index, bound low, exclusive, returns⟩
  | index w bound => exact ⟨memory, bound, counter, exclusive, returns⟩
  | indexFlag x w bound => exact ⟨memory, bound, counter, exclusive, returns⟩
  | store m named canonical => exact ⟨canonical memory, index, counter, exclusive, returns⟩
  | wait x =>
    have notHalted : ¬ s.halted.isSome = true := by rw [alive]; decide
    exact ⟨memory, index, counter, fun both => notHalted both.1, returns⟩
  | push nnn room =>
    refine ⟨memory, index, ?target, exclusive, fun k hk _ => ?slot⟩
    case target => rw [writePc_pc, addrWord_toNat]; omega
    case slot =>
      simp only [writePc_stack, pushed_stack room k hk]
      split
      case isTrue => exact low
      case isFalse => exact slots k hk
  | pop used => exact ⟨memory, index, (slots _ _).trans (by decide), exclusive, fun k hk _ => slots k hk⟩
  | overflow nnn sp stack full bound => exact inv_raise memory index idle bound
  | underflow | drawFault | loadFault => exact inv_raise memory index idle fun k hk _ => slots k hk
  | storeFault m a named outside canonical => exact inv_raise (canonical memory) index idle fun k hk _ => slots k hk

/-! ### The host operations -/

theorem inv_recordOpcode (w : Word) (hs : Inv s) : Inv (recordOpcode w s) :=
  ⟨hs.memory, hs.index, hs.counter, hs.notHaltedAndWaiting, hs.returns⟩

theorem inv_logEvent (e : Event) (hs : Inv s) : Inv (logEvent e s) :=
  ⟨hs.memory, hs.index, hs.counter, hs.notHaltedAndWaiting, hs.returns⟩

theorem inv_cycle (hs : Inv s) (ht : cycle s = .next t) : Inv t := by
  cases notGated : gated s with
  | true =>
    cases (cycle_gated notGated).symm.trans ht
    exact hs
  | false =>
    obtain ⟨alive, -, idle⟩ := gated_eq_false.1 notGated
    by_cases inside : s.pc.toNat ≤ 0xFFE
    · have advanced := pc_add_two_toNat inside
      have hs' : Inv (writePc (s.pc + 2) s) :=
        ⟨hs.memory, hs.index, by rw [writePc_pc]; omega, hs.notHaltedAndWaiting, hs.returns⟩
      cases known : decodeWord (wordAtPc s) with
      | none =>
        cases (cycle_of_unrecognised notGated inside known).symm.trans ht
        exact inv_recordOpcode _ (inv_logEvent _ hs')
      | some i =>
        obtain ⟨u, hu, effect⟩ := exec_effect i (writePc (s.pc + 2) s)
        have executed : Inv u := effect.inv hs' alive idle (by rw [writePc_pc]; omega)
        rw [cycle_of_fetch notGated inside, runWord_of_recognised known, hu] at ht
        cases ht
        split
        case isTrue => exact executed
        case isFalse => exact inv_recordOpcode _ executed
    · cases (cycle_of_fetch_fault notGated (by omega)).symm.trans ht
      exact inv_raise hs.memory hs.index idle fun k hk below => hs.returns k hk (.inl below)

theorem inv_resetOp (s : State) : Inv (resetOp s) :=
  ⟨Memory.nil_wf _, invariantHoldsAtReset.index, invariantHoldsAtReset.counter, invariantHoldsAtReset.notHaltedAndWaiting,
    invariantHoldsAtReset.returns⟩

theorem inv_loadRom (bytes : List Byte) (s : State) : Inv (loadRom bytes s) := by
  have canonical : Memory.wf (loadRom bytes s).cfg (loadRom bytes s).mem = true := by
    rw [loadRom_cfg, loadRom_mem]
    exact romCells_wf _ _ _ (by rw [List.length_take]; omega)
  rw [loadRom_frame] at canonical ⊢
  obtain ⟨-, index, counter, exclusive, returns⟩ := inv_resetOp s
  exact ⟨canonical, index, counter, exclusive, returns⟩

theorem inv_setKeyLevel (k : Reg) (p : Bool) (hs : Inv s) : Inv (setKeyLevel k p s) := by
  obtain ⟨memory, index, counter, exclusive, returns⟩ := hs
  rcases setKeyLevel_cases k p s with ⟨x, -, -, -, press⟩ | level
  · rw [press]
    exact ⟨memory, index, counter, fun both => Bool.noConfusion both.2, returns⟩
  · rw [level]
    exact ⟨memory, index, counter, exclusive, returns⟩

theorem inv_applyOp (hs : Inv s) (ht : applyOp op s = .next t) : Inv t := by
  cases op with
  | cycle => exact inv_cycle hs ht
  | reset =>
    cases ht
    exact inv_resetOp s
  | loadRom bytes =>
    cases ht
    exact inv_loadRom bytes s
  | tickTimers | markClean | setPaused =>
    cases ht
    exact ⟨hs.memory, hs.index, hs.counter, hs.notHaltedAndWaiting, hs.returns⟩
  | setKey code p =>
    obtain ⟨k, rfl, rfl⟩ := key_of_applyOp_setKey ht
    exact inv_setKeyLevel k p hs

/-- Settles O60: a step is a cycle, or a host operation over the rest of the schedule, which the invariant does not read. -/
theorem everyStepKeepsTheInvariant : Obligations.EveryStepKeepsTheInvariant := by
  intro s t hs ht
  cases scheduled : s.schedule with
  | nil => exact inv_cycle hs ((step_of_empty scheduled).symm.trans ht)
  | cons op rest =>
    have hs' : Inv { s with schedule := rest } :=
      ⟨hs.memory, hs.index, hs.counter, hs.notHaltedAndWaiting, hs.returns⟩
    exact inv_applyOp hs' ((step_of_cons scheduled).symm.trans ht)

end Sys2Proof.Proofs
end
